-- ==== Sys2Proof/Word.lean ====
section
/-! DEFINITION. The widths the spec fixes: one operation is one 64-bit word (30_encoding.md R60), carried
in bytes as eight bytes (R71). Every register of the block is a number with a bound that the parameters
of 00_scope.md R6 give, so no other word type is needed. -/

namespace Sys2Proof

/-- One operation word, bit 0 least significant (30_encoding.md R60). -/
abbrev Word := BitVec 64

/-- One byte of an operation stream (30_encoding.md R71). -/
abbrev Byte := BitVec 8

end Sys2Proof
end

