-- ==== Sys2Proof/Syntax.lean ====
section
/-! DEFINITION. The five host operations (00_scope.md R5), one constructor per row of the opcode table,
with the operands of 30_encoding.md R62 to R65. -/

namespace Sys2Proof

/-- One operation of the block (00_scope.md R5). -/
inductive Instr where
  /-- TICK: one active clock edge, `r` the reset level during it (30_encoding.md R62). -/
  | tick (r : Bool)
  /-- SET_WAVEFORM with the 3-bit waveform code `sel` (30_encoding.md R63). -/
  | setWaveform (sel : BitVec 3)
  /-- SET_FREQUENCY with the UQ32.16 field `F` (30_encoding.md R64). -/
  | setFrequency (F : BitVec 48)
  /-- RESET_ASSERT (30_encoding.md R65). -/
  | resetAssert
  /-- RESET_RELEASE (30_encoding.md R65). -/
  | resetRelease
deriving DecidableEq, Repr

end Sys2Proof
end

