-- ==== Sys2Proof/Decode.lean ====
section
/-! DEFINITION. The operation encoding (30_encoding.md): the fields of the 64-bit word, the total decoder
of R67 with every rejection named, the encoder, and words carried in bytes (R71). The encoding is the
spec's own decision (92_eei_decisions.md D17, D20). -/

namespace Sys2Proof

/-- Why a word is no operation (30_encoding.md R66). Every one of them is the one outcome
IllegalOperation when the word is applied (60_exceptions.md R174). -/
inductive DecodeError where
  /-- `res = w[59:48]` is not zero. -/
  | reservedBits
  /-- `op` is 0x0 or in 0x6 to 0xF. -/
  | illegalOp
  /-- A payload bit that must be zero is one. -/
  | payloadBits
  /-- A byte stream ends inside a word (no word, so nothing to apply; log 3). -/
  | truncated
deriving DecidableEq, Repr

/-- `w[63:60]` (30_encoding.md R60). -/
def opField (w : Word) : BitVec 4 := w.extractLsb' 60 4

/-- `w[59:48]` (30_encoding.md R60). -/
def resField (w : Word) : BitVec 12 := w.extractLsb' 48 12

/-- `w[47:0]` (30_encoding.md R60). -/
def payloadField (w : Word) : BitVec 48 := w.extractLsb' 0 48

/-- The decoder, total on every word (30_encoding.md R67). -/
def decode (w : Word) : Except DecodeError Instr :=
  if resField w ≠ 0 then .error .reservedBits
  else if opField w = 1 then
    if (payloadField w).extractLsb' 1 47 ≠ 0 then .error .payloadBits
    else .ok (.tick ((payloadField w).getLsbD 0))
  else if opField w = 2 then
    if (payloadField w).extractLsb' 3 45 ≠ 0 then .error .payloadBits
    else .ok (.setWaveform ((payloadField w).extractLsb' 0 3))
  else if opField w = 3 then .ok (.setFrequency (payloadField w))
  else if opField w = 4 then
    if payloadField w ≠ 0 then .error .payloadBits else .ok .resetAssert
  else if opField w = 5 then
    if payloadField w ≠ 0 then .error .payloadBits else .ok .resetRelease
  else .error .illegalOp

/-- A word from its operation code and payload, the reserved field zero (30_encoding.md R60). -/
def mkWord (op : BitVec 4) (payload : BitVec 48) : Word := op ++ (0 : BitVec 12) ++ payload

/-- The operation code of each operation (30_encoding.md R61). -/
def Instr.opcode : Instr → BitVec 4
  | .tick _ => 1
  | .setWaveform _ => 2
  | .setFrequency _ => 3
  | .resetAssert => 4
  | .resetRelease => 5

/-- The payload of each operation (30_encoding.md R62 to R65). -/
def Instr.payload : Instr → BitVec 48
  | .tick r => (BitVec.ofBool r).setWidth 48
  | .setWaveform sel => sel.setWidth 48
  | .setFrequency F => F
  | .resetAssert => 0
  | .resetRelease => 0

/-- The word of an operation (30_encoding.md R60 to R65). -/
def encode (i : Instr) : Word := mkWord i.opcode i.payload

/-- Byte `k` of a word is `w[8k+7 : 8k]` (30_encoding.md R71). -/
def wordByte (w : Word) (k : Nat) : Byte := w.extractLsb' (8 * k) 8

/-- The eight bytes of a word, least significant byte first (30_encoding.md R71). -/
def bytesOfWord (w : Word) : List Byte :=
  [wordByte w 0, wordByte w 1, wordByte w 2, wordByte w 3,
   wordByte w 4, wordByte w 5, wordByte w 6, wordByte w 7]

/-- The word that eight bytes carry, the first the least significant (30_encoding.md R71). -/
def wordOfBytes (b0 b1 b2 b3 b4 b5 b6 b7 : Byte) : Word :=
  b7 ++ b6 ++ b5 ++ b4 ++ b3 ++ b2 ++ b1 ++ b0

/-- The bytes of a stream of words, in order (30_encoding.md R71). -/
def bytesOfWords : List Word → List Byte
  | [] => []
  | w :: ws => bytesOfWord w ++ bytesOfWords ws

/-- The words a byte stream carries (30_encoding.md R71); a stream that ends inside a word carries no
whole stream of words and is rejected by name. -/
def wordsOfBytes : List Byte → Except DecodeError (List Word)
  | [] => .ok []
  | b0 :: b1 :: b2 :: b3 :: b4 :: b5 :: b6 :: b7 :: rest =>
    match wordsOfBytes rest with
    | .ok ws => .ok (wordOfBytes b0 b1 b2 b3 b4 b5 b6 b7 :: ws)
    | .error e => .error e
  | _ => .error .truncated

/-- Decodes the first operation of a byte stream and gives the rest of the stream. Total on any bytes:
fewer than eight bytes are rejected by name. -/
def decodeBytes : List Byte → Except DecodeError (Instr × List Byte)
  | b0 :: b1 :: b2 :: b3 :: b4 :: b5 :: b6 :: b7 :: rest =>
    match decode (wordOfBytes b0 b1 b2 b3 b4 b5 b6 b7) with
    | .ok i => .ok (i, rest)
    | .error e => .error e
  | _ => .error .truncated

/-- The operation word whose low `nbits` bits are those of `w` and whose other bits are zero. -/
def tableWord (nbits w : Nat) : Word := BitVec.ofNat 64 (w % 2 ^ nbits)

/-- What the decoder reads from the operation word `w`, laid out as bytes first (30_encoding.md R71). -/
def decodeTableWord (nbits w : Nat) : Option Instr :=
  match decodeBytes (bytesOfWord (tableWord nbits w)) with
  | .ok (i, _) => some i
  | .error _ => none

end Sys2Proof
end

