-- ==== Sys2Proof/Config.lean ====
section
/-! DEFINITION. The implementation parameters of one instance (00_scope.md R6 to R8) and the request that
elaboration is asked to build an instance from (60_exceptions.md R171). The spec leaves no value free: a
step is a total function once the parameters are fixed (00_scope.md R12), so this file has no opaque
constant. FS, OUT_INIT and OVF_POLICY are open in the spec; they are fields here, so a statement over
every machine holds for every value of them (DESIGN CHOICE, log 1). -/

namespace Sys2Proof

/-- What SET_FREQUENCY does with a tuning word above `2^W - 1` (00_scope.md R6, 41_frequency_tuning.md R101). -/
inductive OvfPolicy where
  | reject | wrap | clamp
deriving DecidableEq, Repr

/-- The parameters of one instance, fixed for its life (00_scope.md R6). -/
structure Params where
  /-- Address width. -/
  A : Nat
  /-- Sample bit depth. -/
  B : Nat
  /-- Width of the phase accumulator and of the tuning word. -/
  W : Nat
  /-- Sampling (master clock) frequency in Hz, an exact rational. -/
  FS : Rat
  /-- OUT_INIT: what the sample register takes at power-on and reset. -/
  outInit : Nat
  /-- OVF_POLICY. -/
  policy : OvfPolicy
deriving DecidableEq, Repr

/-- The table length `N = 2^A` (00_scope.md R6). -/
def Params.N (p : Params) : Nat := 2 ^ p.A

/-- The full-scale sample `AMP = 2^B - 1` (00_scope.md R6, 40_wavetable.md R81). -/
def Params.AMP (p : Params) : Nat := 2 ^ p.B - 1

/-- The phase fraction bits below the address, `FRAC = W - A` (00_scope.md R6). -/
def Params.FRAC (p : Params) : Nat := p.W - p.A

/-- "At the defaults" (00_scope.md R8). FS, OUT_INIT and OVF_POLICY are the spec's reference choices
for parameters it leaves open (DESIGN CHOICE, log 1 and log 2). -/
def Params.defaults : Params :=
  { A := 12, B := 12, W := 24, FS := 48000000, outInit := 0, policy := .reject }

/-- What the host asks elaboration for: `new_oscillator(N, B, W, sampling_freq)` with the spec's own two
parameters added (60_exceptions.md R171). The numbers are integers, so that a request can be
wrong in each way R171 lists; `policy = none` stands for an OVF_POLICY that is none of the three
(DESIGN CHOICE, log 10). -/
structure Request where
  N : Int
  B : Int
  W : Int
  FS : Rat
  outInit : Int
  policy : Option OvfPolicy
deriving DecidableEq, Repr

/-- The request that names the parameters `p`. -/
def Params.request (p : Params) : Request :=
  { N := p.N, B := p.B, W := p.W, FS := p.FS, outInit := p.outInit, policy := some p.policy }

end Sys2Proof
end

