-- ==== Sys2Proof/Machine/State.lean ====
section
/-! DEFINITION. The state of one instance (10_state.md R20), the outcomes of its operations
(60_exceptions.md R170), the reasons the model can stop, and the power-on state (10_state.md R32). -/

namespace Sys2Proof.Machine

/-- The WaveformState, six values and no more (10_state.md R23, 43_waveform_state.md R153). -/
inductive Wave where
  | sine | square | triangle | sawtooth | pwm | noise
deriving DecidableEq, Repr

/-- The four wavetables of the ROM (20_memory.md R40). -/
inductive Table where
  | sine | square | triangle | sawtooth
deriving DecidableEq, Repr

/-- The errors an operation can raise (60_exceptions.md R170). -/
inductive OpError where
  | frequencyOutOfRange | invalidWaveform | illegalOperation
deriving DecidableEq, Repr

/-- What one operation reports to the host: success, success with the emitted sample (TICK), or an error
(60_exceptions.md R170, 00_scope.md R12). -/
inductive OpResult where
  | ok
  | sample (v : Nat)
  | error (e : OpError)
deriving DecidableEq, Repr

/-- One oscillator instance. The first five fields are the spec's state record (10_state.md R20); `par`
holds the instance's constants (DESIGN CHOICE, log 1); `pending` and `result` are the model's
own, the two sides of the host interface (DESIGN CHOICE, log 3 and log 4). -/
structure State where
  /-- The instance's parameters: constants, written by no operation (00_scope.md R6, 30_encoding.md R68). -/
  par : Params
  /-- Phase accumulator, in `[0, 2^W)` (10_state.md R21). -/
  count : Nat
  /-- Sample output register, in `[0, AMP]` (10_state.md R22). -/
  out : Nat
  /-- Waveform selector (10_state.md R23). -/
  wave : Wave
  /-- Desired output frequency in Hz, non-negative (10_state.md R24). -/
  fout : Rat
  /-- Level of the asynchronous reset input, `true` asserted (10_state.md R26). -/
  rst : Bool
  /-- MODEL's own: the operation words the host has issued and the block has not yet applied (log 3). -/
  pending : List Word
  /-- MODEL's own: the outcome the host was given for the latest operation (10_state.md R31; log 4). -/
  result : Option OpResult
deriving DecidableEq, Repr

/-- Why elaboration fails. Only `elaborate` (Machine/Elaborate.lean) raises these; no step does, because
every operation error of the spec is an outcome after which the machine goes on (60_exceptions.md R176). -/
inductive Fault where
  /-- InvalidConfig (60_exceptions.md R171): the parameters are illegal and no instance exists. Raised by
  elaboration; safe, the spec names this stop. -/
  | invalidConfig
  /-- WavetableRangeError (60_exceptions.md R175): a generated entry lies outside `[0, AMP]`. Raised by
  elaboration; safe, the spec names this stop. -/
  | wavetableRangeError
deriving DecidableEq, Repr

/-- Why the model refuses. No meaning refuses. -/
inductive Refusal where
  /-- The operation has no meaning in the model. Raised by no arm: every operation has its meaning. It
  would be safe. -/
  | notModelled (mnemonic : String)
deriving DecidableEq, Repr

/-- The state at the end of elaboration with parameters `p` (10_state.md R32, 70_reset_and_hazards.md
R190); nothing is pending and no outcome has been reported. -/
def State.powerOn (p : Params) : State :=
  { par := p, count := 0, out := p.outInit, wave := .sine, fout := 0, rst := false,
    pending := [], result := none }

/-- The power-on state at the defaults (10_state.md R32, 00_scope.md R8; log 1 and log 2 for the
parameters the spec leaves open). -/
def State.reset : State := State.powerOn Params.defaults

end Sys2Proof.Machine
end

