-- ==== Sys2Proof/Machine/Operands.lean ====
section
/-! DEFINITION. What the operand fields of an operation word stand for: the waveform code of
10_state.md R23 and the UQ32.16 frequency of 30_encoding.md R64. TICK's `r` is a Bool already. -/

namespace Sys2Proof.Machine

/-- The waveform a 3-bit code names; codes 6 and 7 are reserved and name none (10_state.md R23). -/
def waveOfCode (sel : BitVec 3) : Option Wave :=
  match sel.toNat with
  | 0 => some .sine
  | 1 => some .square
  | 2 => some .triangle
  | 3 => some .sawtooth
  | 4 => some .pwm
  | 5 => some .noise
  | _ => none

/-- The 3-bit code of a waveform (10_state.md R23). -/
def waveCode : Wave → BitVec 3
  | .sine => 0
  | .square => 1
  | .triangle => 2
  | .sawtooth => 3
  | .pwm => 4
  | .noise => 5

/-- The table a waveform reads; PWM and NOISE read none (10_state.md R23, 20_memory.md R43). -/
def waveTable : Wave → Option Table
  | .sine => some .sine
  | .square => some .square
  | .triangle => some .triangle
  | .sawtooth => some .sawtooth
  | .pwm => none
  | .noise => none

/-- The frequency a field stands for, `f = F / 2^16` Hz, exactly (30_encoding.md R64). -/
def freqOfField (F : BitVec 48) : Rat := mkRat F.toNat 65536

end Sys2Proof.Machine
end

