-- ==== Sys2Proof/Machine/Tuning.lean ====
section
/-! DEFINITION. The Frequency Tuning Unit (41_frequency_tuning.md section 1): combinational, no state. -/

namespace Sys2Proof.Machine

/-- `FTW_RAW(f) = floor(f * 2^W / FS)` (41_frequency_tuning.md R100), exact: the quotient of the
cross-multiplied numerators and denominators (DEDUCED, log 8). -/
def ftwRaw (p : Params) (f : Rat) : Nat :=
  f.num.toNat * 2 ^ p.W * p.FS.den / (f.den * p.FS.num.toNat)

/-- The tuning word `inc = FTU(f)` under the instance's OVF_POLICY (41_frequency_tuning.md R101). -/
def ftu (p : Params) (f : Rat) : Nat :=
  match p.policy with
  | .reject => ftwRaw p f
  | .wrap => ftwRaw p f % 2 ^ p.W
  | .clamp => min (ftwRaw p f) (2 ^ p.W - 1)

/-- SET_FREQUENCY accepts `f` unless the policy is `reject` and the raw tuning word exceeds `2^W - 1`
(41_frequency_tuning.md R103). -/
def frequencyAccepted (p : Params) (f : Rat) : Bool :=
  !(p.policy == .reject && decide (2 ^ p.W - 1 < ftwRaw p f))

end Sys2Proof.Machine
end

