-- ==== Sys2Proof/Machine/Wavetable.lean ====
section
/-! DEFINITION. The Wavetable Generator (40_wavetable.md) and the ROM read (20_memory.md R42). Every
entry is computed exactly in integers: the rational formulas of R84 and R85 over one common denominator,
and the real formula of R82 by exact comparison of rationals with cosines (DEDUCED, log 7 and log 8). -/

namespace Sys2Proof.Machine

/-- `round(num / den)`, round half to even, for `den > 0` (00_scope.md R10). -/
def divRoundHalfEven (num : Int) (den : Nat) : Int :=
  let q := num / (den : Int)
  let r := num % (den : Int)
  if 2 * r < den then q
  else if (den : Int) < 2 * r then q + 1
  else if q % 2 = 0 then q else q + 1

/-- `clamp(v, lo, hi) = min(max(v, lo), hi)` (00_scope.md R10). -/
def clampInt (v lo hi : Int) : Int := min (max v lo) hi

/-- Compares the rational `p / q` (`q > 0`) with `cos(2 pi k / 2^n)`, exactly. Where the cosine is not
zero its square is `(1 + cos(2 * angle)) / 2`, so the comparison is one of `2 (p/q)^2 - 1` with the cosine
of the doubled angle, `2 pi k / 2^(n-1)` (DEDUCED, log 7). -/
def cosCmp : (n k : Nat) → (p : Int) → (q : Nat) → Ordering
  | 0, _, p, q => compare p (q : Int)
  | n + 1, k, p, q =>
    let m := 2 ^ (n + 1)
    let a := 4 * (k % m)
    if a = m ∨ a = 3 * m then compare p 0
    else if a < m ∨ 3 * m < a then
      if p < 0 then .lt else cosCmp n k (2 * p * p - (q : Int) * (q : Int)) (q * q)
    else
      if 0 ≤ p then .gt
      else (cosCmp n k (2 * p * p - (q : Int) * (q : Int)) (q * q)).swap

/-- Compares `p / q` (`q > 0`) with `sin(2 pi x / 2^A)`: the sine is the cosine of the angle a quarter
turn back, `2 pi (4 x + 3 N) / (4 N)`. -/
def sinCmp (A x : Nat) (p : Int) (q : Nat) : Ordering := cosCmp (A + 2) (4 * x + 3 * 2 ^ A) p q

/-- The largest `m < 2^bits` that `good` accepts, found bit by bit from the top, for a `good` that holds
at 0 and, where it fails, fails at everything above. `acc` holds the bits found so far. -/
def searchTop (good : Nat → Bool) : (bits acc : Nat) → Nat
  | 0, acc => acc
  | b + 1, acc => if good (acc + 2 ^ b) then searchTop good b (acc + 2 ^ b) else searchTop good b acc

/-- Compares `m - 1/2` with the exact value `AMP * (1/2) * (sin(2 pi x / N) + 1)` of SINE at `x`: the
same as `(2 m - 1 - AMP) / AMP` with the sine. -/
def sineHalfCmp (A B x m : Nat) : Ordering :=
  sinCmp A x (2 * (m : Int) - 1 - ((2 ^ B - 1 : Nat) : Int)) (2 ^ B - 1)

/-- `SINE[x]` (40_wavetable.md R82): the largest `m` with `m - 1/2` at most the exact value, and one less
where that is a tie and `m` is odd (round half to even). -/
def sineEntry (A B x : Nat) : Int :=
  let m := searchTop (fun m => sineHalfCmp A B x m != .gt) B 0
  if sineHalfCmp A B x m = .eq ∧ m % 2 = 1 then (m : Int) - 1 else m

/-- `SQUARE[x]` (40_wavetable.md R83). -/
def squareEntry (A B x : Nat) : Int :=
  if 2 * x < 2 ^ A then ((2 ^ B - 1 : Nat) : Int) else 0

/-- `4 u(x)` of 40_wavetable.md R84, that is `|((4 x + N) mod 4 N) - 2 N|`. -/
def triangleU4 (A x : Nat) : Nat :=
  (((4 * x + 2 ^ A) % (4 * 2 ^ A) : Nat) - (2 * 2 ^ A : Nat) : Int).natAbs

/-- `TRIANGLE_RAW[x]` (40_wavetable.md R84): `round(N/2 + (2 AMP / N) u(x) - AMP/2)`, written over the
denominator `2 N`. -/
def triangleRaw (A B x : Nat) : Int :=
  let n : Int := (2 ^ A : Nat)
  let amp : Int := (2 ^ B - 1 : Nat)
  divRoundHalfEven (n * n + amp * (triangleU4 A x : Int) - amp * n) (2 * 2 ^ A)

/-- `TRIANGLE[x]`, clamped to `[0, AMP]` (40_wavetable.md R84, 92_eei_decisions.md D15). -/
def triangleEntry (A B x : Nat) : Int :=
  clampInt (triangleRaw A B x) 0 ((2 ^ B - 1 : Nat) : Int)

/-- `SAWTOOTH[x]` (40_wavetable.md R85): `round(AMP (x/N - floor(1/2 + x/N)) + AMP/2)`, written over the
denominator `2 N`. -/
def sawtoothEntry (A B x : Nat) : Int :=
  let n : Int := (2 ^ A : Nat)
  let amp : Int := (2 ^ B - 1 : Nat)
  let fl : Int := ((2 * x + 2 ^ A) / (2 * 2 ^ A) : Nat)
  divRoundHalfEven (2 * amp * ((x : Int) - n * fl) + amp * n) (2 * 2 ^ A)

/-- Entry `x` of table `t` as the generator makes it for address width `A` and bit depth `B`
(40_wavetable.md R80). -/
def tableEntry (A B : Nat) (t : Table) (x : Nat) : Int :=
  match t with
  | .sine => sineEntry A B x
  | .square => squareEntry A B x
  | .triangle => triangleEntry A B x
  | .sawtooth => sawtoothEntry A B x

/-- The ROM read `TableRead(t, a)` (20_memory.md R42): a pure function of the instance's `(A, B)`. -/
def tableRead (A B : Nat) (t : Table) (a : Nat) : Nat := (tableEntry A B t a).toNat

/-- The generator's own range check of one table: every entry in `[0, AMP]` (40_wavetable.md R86). -/
def tableInRange (A B : Nat) (t : Table) : Bool :=
  (List.range (2 ^ A)).all fun x =>
    decide (0 ≤ tableEntry A B t x ∧ tableEntry A B t x ≤ ((2 ^ B - 1 : Nat) : Int))

/-- The range check of all four tables (40_wavetable.md R86). -/
def tablesInRange (A B : Nat) : Bool :=
  tableInRange A B .sine && tableInRange A B .square &&
    tableInRange A B .triangle && tableInRange A B .sawtooth

end Sys2Proof.Machine
end

