-- ==== Sys2Proof/Machine/Ops.lean ====
section
/-! DEFINITION. The named operations that the meanings are built from: ending an operation with a result
or an error (00_scope.md R11), the parts of a clock edge (42_phase_accumulator.md R121 to R123), the reset
level (R125 to R127), and the host's stream of operation words. -/

namespace Sys2Proof.Machine

/-- `return v`: the operation ends successfully and the host is given its result (00_scope.md R11). -/
def complete (r : OpResult) (s : State) : Host.Outcome State Fault Refusal :=
  .next { s with result := some r }

/-- `raise E`: the operation ends with the error outcome `E` and every register is as it was
(00_scope.md R11, 60_exceptions.md R176). This is all of "taking an exception" on this hardware: no
state is saved, no mode changes and no control is transferred, so there is no return from one
(60_exceptions.md R179). The machine goes on (DEDUCED, log 5). -/
def raise (e : OpError) (s : State) : Host.Outcome State Fault Refusal :=
  .next { s with result := some (.error e) }

/-- The table address `count[W-1 : W-A]`, an `A`-bit field (42_phase_accumulator.md R122). -/
def addr (p : Params) (count : Nat) : Nat := count / 2 ^ p.FRAC % 2 ^ p.A

/-- The sample selector `sel(wave, addr, out)` (42_phase_accumulator.md R123, R124): a table entry, or
the old `out` under PWM and NOISE. -/
def selectSample (p : Params) (wave : Wave) (a out : Nat) : Nat :=
  match waveTable wave with
  | some t => tableRead p.A p.B t a
  | none => out

/-- The accumulator update `(count + inc) mod 2^W` (42_phase_accumulator.md R121). -/
def advanceCount (p : Params) (count inc : Nat) : Nat := (count + inc) % 2 ^ p.W

/-- What asserting the reset does, at an edge or between edges (42_phase_accumulator.md R125, R126). -/
def assertReset (s : State) : State :=
  { s with rst := true, count := 0, out := s.par.outInit }

/-- What releasing the reset does (42_phase_accumulator.md R127). -/
def releaseReset (s : State) : State := { s with rst := false }

/-- One clock edge with reset released: `out` is loaded from the accumulator value before the edge, and
the accumulator advances (42_phase_accumulator.md R120 to R124, 92_eei_decisions.md D4). -/
def clockEdge (s : State) : State :=
  { s with
    out := selectSample s.par s.wave (addr s.par s.count) s.out
    count := advanceCount s.par s.count (ftu s.par s.fout) }

/-- SET_FREQUENCY for any exact frequency (41_frequency_tuning.md R103; 93_implementation_defined.md I14). -/
def setFrequencyTo (f : Rat) (s : State) : Host.Outcome State Fault Refusal :=
  if frequencyAccepted s.par f then complete .ok { s with fout := f }
  else raise .frequencyOutOfRange s

/-- Applying a word that the decoder rejects (60_exceptions.md R174). -/
def applyIllegalWord (s : State) : Host.Outcome State Fault Refusal := raise .illegalOperation s

/-- The host has applied nothing: the state stays as it is (60_exceptions.md R184; log 6). -/
def idle (s : State) : Host.Outcome State Fault Refusal := .next s

/-- The next operation word the host has issued, and the state without it (00_scope.md R12; log 3). -/
def fetch (s : State) : Option (Word × State) :=
  match s.pending with
  | [] => none
  | w :: rest => some (w, { s with pending := rest })

/-- The host issues more operation words, after those already issued (00_scope.md R12; log 3). -/
def enqueue (ws : List Word) (s : State) : State := { s with pending := s.pending ++ ws }

/-- `s` with the operation word of `tableWord nbits w` issued before every other pending word. -/
def pushWord (s : State) (nbits w : Nat) : State :=
  { s with pending := tableWord nbits w :: s.pending }

end Sys2Proof.Machine
end

