-- ==== Sys2Proof/Machine/Frequency.lean ====
section
/-! DEFINITION. The operation of the frequency tuning family (41_frequency_tuning.md): SET_FREQUENCY. -/

namespace Sys2Proof.Machine

/-- SET_FREQUENCY of the operation word's field (41_frequency_tuning.md R103, 30_encoding.md R64). -/
def execSetFrequency (F : BitVec 48) (s : State) : Host.Outcome State Fault Refusal :=
  setFrequencyTo (freqOfField F) s

end Sys2Proof.Machine
end

