-- ==== Sys2Proof/Machine/Phase.lean ====
section
/-! DEFINITION. The operations of the phase accumulator family (42_phase_accumulator.md): TICK,
RESET_ASSERT and RESET_RELEASE. None of them can fail (60_exceptions.md R178). -/

namespace Sys2Proof.Machine

/-- TICK (42_phase_accumulator.md R120): with `r` asserted the reset wins over the edge (R125); otherwise
the reset is released and one clock edge follows. The result is the sample after the edge. -/
def execTick (r : Bool) (s : State) : Host.Outcome State Fault Refusal :=
  let t := if r then assertReset s else clockEdge (releaseReset s)
  complete (.sample t.out) t

/-- RESET_ASSERT (42_phase_accumulator.md R126): at once, with no clock edge. -/
def execResetAssert (s : State) : Host.Outcome State Fault Refusal := complete .ok (assertReset s)

/-- RESET_RELEASE (42_phase_accumulator.md R127). -/
def execResetRelease (s : State) : Host.Outcome State Fault Refusal := complete .ok (releaseReset s)

end Sys2Proof.Machine
end

