-- ==== Sys2Proof/Machine/Waveform.lean ====
section
/-! DEFINITION. The operation of the Waveform State family (43_waveform_state.md): SET_WAVEFORM. -/

namespace Sys2Proof.Machine

/-- SET_WAVEFORM (43_waveform_state.md R150): writes `wave` only; the reserved codes 6 and 7 raise
InvalidWaveform (R153). -/
def execSetWaveform (sel : BitVec 3) (s : State) : Host.Outcome State Fault Refusal :=
  match waveOfCode sel with
  | some v => complete .ok { s with wave := v }
  | none => raise .invalidWaveform s

end Sys2Proof.Machine
end

