-- ==== Sys2Proof/Machine/Dispatch.lean ====
section
/-! DEFINITION. The meaning of each operation, one arm per constructor. -/

namespace Sys2Proof.Machine

def exec (i : Instr) (s : State) : Host.Outcome State Fault Refusal :=
  match i with
  | .tick r => Sys2Proof.Machine.execTick r s
  | .setWaveform sel => Sys2Proof.Machine.execSetWaveform sel s
  | .setFrequency F => Sys2Proof.Machine.execSetFrequency F s
  | .resetAssert => Sys2Proof.Machine.execResetAssert s
  | .resetRelease => Sys2Proof.Machine.execResetRelease s

end Sys2Proof.Machine
end

