-- ==== Sys2Proof/Machine/Step.lean ====
section
/-! DEFINITION. One step of the machine: the host's next operation word is taken, decoded and applied,
completely (00_scope.md R12). With nothing issued the state stays as it is (60_exceptions.md R184). -/

namespace Sys2Proof.Machine

/-- One step (00_scope.md R12): an illegal word fails before anything else (60_exceptions.md R177). -/
def step (s : State) : Host.Outcome State Fault Refusal :=
  match fetch s with
  | none => idle s
  | some (w, s') =>
    match decode w with
    | .ok i => exec i s'
    | .error _ => applyIllegalWord s'

/-- `s` with the word of `nbits` bits `w` issued, so that the next step applies it (log 3). -/
def State.withFetchWord (s : State) (nbits w : Nat) : State := pushWord s nbits w

end Sys2Proof.Machine
end

