-- ==== Sys2Proof/Machine/Assembler.lean ====
section
/-! DEFINITION. The assembly syntax of 30_encoding.md R69 and the pseudo-instructions of R70: an abstract
line, the words it stands for, and the reading of a text line. No operation of the block depends on it
(92_eei_decisions.md D24); what the spec does not say of the text is DESIGN CHOICE, log 12. -/

namespace Sys2Proof.Machine

/-- One line of assembly (30_encoding.md R69, R70). -/
inductive AsmLine where
  | tick
  | tickRst
  /-- `setwave NAME` with one of the six names. -/
  | setwaveName (v : Wave)
  /-- `setwave K` with a decimal code 0 to 7. -/
  | setwaveCode (k : BitVec 3)
  /-- `setfreq V` with a decimal number of Hz. -/
  | setfreq (v : Rat)
  | rstassert
  | rstrelease
  /-- `.word`: the word as written, legal or not. -/
  | word (w : Word)
  /-- Pseudo: `tick rst`. -/
  | reset
  /-- Pseudo: `k` copies of `tick`, `k >= 1`. -/
  | run (k : Nat)
  /-- Pseudo: `rstassert`. -/
  | hold
  /-- Pseudo: `rstrelease`. -/
  | release
deriving DecidableEq, Repr

/-- The field of an exact frequency, `V * 2^16`; refused where `V` is negative, not an exact multiple of
`2^-16`, or not below `2^32` (30_encoding.md R69). It never rounds. -/
def fieldOfFreq (v : Rat) : Option (BitVec 48) :=
  let n := v.num.toNat * (65536 / v.den)
  if 0 ≤ v.num ∧ 65536 % v.den = 0 ∧ n < 2 ^ 48 then some (BitVec.ofNat 48 n) else none

/-- The words a line stands for, or none where the assembler refuses it (30_encoding.md R69, R70). -/
def asmWords : AsmLine → Option (List Word)
  | .tick => some [encode (.tick false)]
  | .tickRst => some [encode (.tick true)]
  | .setwaveName v => some [encode (.setWaveform (waveCode v))]
  | .setwaveCode k => some [encode (.setWaveform k)]
  | .setfreq v => (fieldOfFreq v).map fun F => [encode (.setFrequency F)]
  | .rstassert => some [encode .resetAssert]
  | .rstrelease => some [encode .resetRelease]
  | .word w => some [w]
  | .reset => some [encode (.tick true)]
  | .run k => if k = 0 then none else some (List.replicate k (encode (.tick false)))
  | .hold => some [encode .resetAssert]
  | .release => some [encode .resetRelease]

/-- The value of a decimal digit. -/
def decDigit (c : Char) : Option Nat :=
  if '0'.toNat ≤ c.toNat ∧ c.toNat ≤ '9'.toNat then some (c.toNat - '0'.toNat) else none

/-- The value of a hexadecimal digit in lower case. -/
def hexDigit (c : Char) : Option Nat :=
  if 'a'.toNat ≤ c.toNat ∧ c.toNat ≤ 'f'.toNat then some (c.toNat - 'a'.toNat + 10) else decDigit c

/-- Reads digits in a base onto `acc`, failing at any other character. -/
def readDigits (digit : Char → Option Nat) (base : Nat) : (acc : Nat) → List Char → Option Nat
  | acc, [] => some acc
  | acc, c :: cs =>
    match digit c with
    | some d => readDigits digit base (acc * base + d) cs
    | none => none

/-- A decimal count: one digit or more. -/
def readCount (cs : List Char) : Option Nat :=
  if cs.isEmpty then none else readDigits decDigit 10 0 cs

/-- A decimal number with an optional fraction (30_encoding.md R69): digits, or digits, a point and
digits. -/
def readDecimal (cs : List Char) : Option Rat :=
  match cs.span (· != '.') with
  | (whole, []) => (readCount whole).map fun n => mkRat n 1
  | (whole, _ :: frac) =>
    match readCount whole, readCount frac with
    | some _, some _ =>
      (readDigits decDigit 10 0 (whole ++ frac)).map fun n => mkRat n (10 ^ frac.length)
    | _, _ => none

/-- A word written as `0x` and sixteen hexadecimal digits (30_encoding.md R69). -/
def readWord : List Char → Option Word
  | '0' :: 'x' :: cs =>
    if cs.length = 16 then (readDigits hexDigit 16 0 cs).map (BitVec.ofNat 64) else none
  | _ => none

/-- A waveform name in lower case (30_encoding.md R69). -/
def readWaveName (cs : List Char) : Option Wave :=
  if cs = ['s', 'i', 'n', 'e'] then some .sine
  else if cs = ['s', 'q', 'u', 'a', 'r', 'e'] then some .square
  else if cs = ['t', 'r', 'i', 'a', 'n', 'g', 'l', 'e'] then some .triangle
  else if cs = ['s', 'a', 'w', 't', 'o', 'o', 't', 'h'] then some .sawtooth
  else if cs = ['p', 'w', 'm'] then some .pwm
  else if cs = ['n', 'o', 'i', 's', 'e'] then some .noise
  else none

/-- The operand of `setwave`: a name, or a decimal code 0 to 7 (30_encoding.md R69). -/
def readSetwave (cs : List Char) : Option AsmLine :=
  match readWaveName cs with
  | some v => some (.setwaveName v)
  | none =>
    match readCount cs with
    | some k => if k < 8 then some (.setwaveCode (BitVec.ofNat 3 k)) else none
    | none => none

/-- The words of a line's text: the runs of characters between spaces and tabs. `cur` is the run being
read, backwards. -/
def splitWords : (cur : List Char) → List Char → List (List Char)
  | cur, [] => if cur.isEmpty then [] else [cur.reverse]
  | cur, c :: cs =>
    if c = ' ' ∨ c = '\t' ∨ c = '\r' then
      if cur.isEmpty then splitWords [] cs else cur.reverse :: splitWords [] cs
    else splitWords (c :: cur) cs

/-- A letter in lower case: names are case-insensitive (30_encoding.md R69). -/
def lowerChar (c : Char) : Char :=
  if 'A'.toNat ≤ c.toNat ∧ c.toNat ≤ 'Z'.toNat then Char.ofNat (c.toNat + 32) else c

/-- A mnemonic with no operand. -/
def readPlain (m : List Char) : Option AsmLine :=
  if m = ['t', 'i', 'c', 'k'] then some .tick
  else if m = ['r', 's', 't', 'a', 's', 's', 'e', 'r', 't'] then some .rstassert
  else if m = ['r', 's', 't', 'r', 'e', 'l', 'e', 'a', 's', 'e'] then some .rstrelease
  else if m = ['r', 'e', 's', 'e', 't'] then some .reset
  else if m = ['h', 'o', 'l', 'd'] then some .hold
  else if m = ['r', 'e', 'l', 'e', 'a', 's', 'e'] then some .release
  else none

/-- A mnemonic with one operand. -/
def readWithOperand (m arg : List Char) : Option AsmLine :=
  if m = ['t', 'i', 'c', 'k'] then
    if arg = ['r', 's', 't'] then some .tickRst else none
  else if m = ['s', 'e', 't', 'w', 'a', 'v', 'e'] then readSetwave arg
  else if m = ['s', 'e', 't', 'f', 'r', 'e', 'q'] then (readDecimal arg).map .setfreq
  else if m = ['.', 'w', 'o', 'r', 'd'] then (readWord arg).map .word
  else if m = ['r', 'u', 'n'] then (readCount arg).map .run
  else none

/-- The words a text line stands for: the comment from `;` on dropped, a blank line standing for none
(30_encoding.md R69). -/
def assembleLine (line : List Char) : Option (List Word) :=
  match splitWords [] ((line.takeWhile (· != ';')).map lowerChar) with
  | [] => some []
  | [m] => (readPlain m).bind asmWords
  | [m, arg] => (readWithOperand m arg).bind asmWords
  | _ => none

/-- The words a list of text lines stands for, or none where a line is refused. -/
def assemble : List (List Char) → Option (List Word)
  | [] => some []
  | line :: lines =>
    match assembleLine line, assemble lines with
    | some ws, some rest => some (ws ++ rest)
    | _, _ => none

end Sys2Proof.Machine
end

