-- ==== Sys2Proof/Machine/Elaborate.lean ====
section
/-! DEFINITION. Elaboration, the source's `new_oscillator` (70_reset_and_hazards.md R190): checks the
request, generates the tables with their range check, and gives the power-on state. -/

namespace Sys2Proof.Machine

/-- Whether a number is a power of two (00_scope.md R7). -/
def isPowerOfTwo (n : Int) : Bool := decide (0 < n) && 2 ^ n.toNat.log2 == n.toNat

/-- The parameters a request names, or none where it breaks 60_exceptions.md R171. -/
def requestParams (r : Request) : Option Params :=
  match r.policy with
  | none => none
  | some pol =>
    if isPowerOfTwo r.N ∧ 0 < r.B ∧ (r.N.toNat.log2 : Int) < r.W ∧ 0 < r.FS ∧
        0 ≤ r.outInit ∧ r.outInit ≤ ((2 ^ r.B.toNat - 1 : Nat) : Int) then
      some { A := r.N.toNat.log2, B := r.B.toNat, W := r.W.toNat, FS := r.FS,
             outInit := r.outInit.toNat, policy := pol }
    else none

/-- Elaboration (70_reset_and_hazards.md R190): InvalidConfig (60_exceptions.md R171),
WavetableRangeError (R175), or the instance in its power-on state. -/
def elaborate (r : Request) : Host.Outcome State Fault Refusal :=
  match requestParams r with
  | none => .fault .invalidConfig
  | some p =>
    if tablesInRange p.A p.B then .next (State.powerOn p) else .fault .wavetableRangeError

end Sys2Proof.Machine
end

