-- ==== Sys2Proof/Machine/Flags.lean ====
section
/-! DEFINITION. The block has no flags, no condition codes and no status register (10_state.md R28). What
the host learns of an operation is its outcome; this file holds the outcomes' numeric codes
(60_exceptions.md R170), which no field of the state keeps as a code. -/

namespace Sys2Proof.Machine

/-- The numeric code of an outcome (60_exceptions.md R170). -/
def outcomeCode : OpResult → Nat
  | .ok => 0
  | .sample _ => 0
  | .error .frequencyOutOfRange => 1
  | .error .invalidWaveform => 2
  | .error .illegalOperation => 3

end Sys2Proof.Machine
end

