-- ==== Sys2Proof/Machine/Instances.lean ====
section
/-! DEFINITION. Several instances side by side (60_exceptions.md R182): a list of machines, of which one
steps at a time. The place in the list is the model's device; the spec's instances have no identifiers
(DESIGN CHOICE, log 11). -/

namespace Sys2Proof.Machine

/-- One step of instance `k`; the others are not read and not written (60_exceptions.md R182). Where no
instance stands at `k`, nothing happens. -/
def stepInstance (k : Nat) (sys : List State) : Host.Outcome (List State) Fault Refusal :=
  match sys[k]? with
  | none => .next sys
  | some s =>
    match step s with
    | .next t => .next (sys.set k t)
    | .fault f => .fault f
    | .refused r => .refused r

end Sys2Proof.Machine
end

