-- ==== Sys2Proof/WellFormed.lean ====
section
/-! DEFINITION. What is well formed: an operation (30_encoding.md R62 to R65) and the parameters of an
instance (00_scope.md R7). -/

namespace Sys2Proof

/-- Every term of `Instr` is an operation the encoding can spell: each operand's type is exactly its
field (30_encoding.md R62 to R65). The reserved waveform codes 6 and 7 are well formed too: they decode
and fail when executed (R63). -/
def Instr.wf : Instr → Bool
  | .tick _ => true
  | .setWaveform _ => true
  | .setFrequency _ => true
  | .resetAssert => true
  | .resetRelease => true

/-- Legal parameters: `B >= 1`, `W > A`, `FS > 0` (00_scope.md R7) and OUT_INIT in `[0, AMP]`
(60_exceptions.md R171). `A` is a natural number by its type. -/
abbrev Params.legal (p : Params) : Prop :=
  1 ≤ p.B ∧ p.A < p.W ∧ 0 < p.FS ∧ p.outInit ≤ p.AMP

end Sys2Proof
end

