-- ==== Sys2Proof/Safety.lean ====
section
/-! DEFINITION. What counts as a good state (10_state.md R20 to R26, 42_phase_accumulator.md R128) and what
the host can observe of the block (10_state.md R31). -/

namespace Sys2Proof.Machine

/-- The legal states of an instance: the ranges of 10_state.md R20, the bound on `fout` under `reject`
(R24) and the held-reset rule of 42_phase_accumulator.md R128, for legal parameters (00_scope.md R7). -/
structure Good (s : State) : Prop where
  /-- The parameters are legal (00_scope.md R7, 60_exceptions.md R171). -/
  legal : s.par.legal
  /-- `count` is in `[0, 2^W)` (10_state.md R20). -/
  count_lt : s.count < 2 ^ s.par.W
  /-- `out` is in `[0, AMP]` (10_state.md R20). -/
  out_le : s.out ≤ s.par.AMP
  /-- `fout >= 0` (10_state.md R20). -/
  fout_nonneg : 0 ≤ s.fout
  /-- Under `reject`, `fout < FS` (10_state.md R24). -/
  fout_lt : s.par.policy = .reject → s.fout < s.par.FS
  /-- While reset is asserted `count = 0` and `out = OUT_INIT` (42_phase_accumulator.md R128). -/
  held : s.rst = true → s.count = 0 ∧ s.out = s.par.outInit

/-- The illegal words, in the words of 30_encoding.md R66 and independently of the decoder: `op` is
`w[63:60]`, `res` is `w[59:48]`, and the payload bits that R62, R63 and R65 say must be zero are those
that make the payload 2, 8 or 1 and more. -/
abbrev IllegalWord (w : Word) : Prop :=
  w.toNat / 2 ^ 60 = 0 ∨ 6 ≤ w.toNat / 2 ^ 60 ∨ w.toNat / 2 ^ 48 % 2 ^ 12 ≠ 0 ∨
  (w.toNat / 2 ^ 60 = 1 ∧ 2 ≤ w.toNat % 2 ^ 48) ∨
  (w.toNat / 2 ^ 60 = 2 ∧ 8 ≤ w.toNat % 2 ^ 48) ∨
  ((w.toNat / 2 ^ 60 = 4 ∨ w.toNat / 2 ^ 60 = 5) ∧ w.toNat % 2 ^ 48 ≠ 0)

/-- `m = round(v)`: the nearest integer, and at a tie the even one (00_scope.md R10). -/
def IsRoundHalfEven (v : ℝ) (m : ℤ) : Prop :=
  |v - m| ≤ 1 / 2 ∧ (|v - m| = 1 / 2 → Even m)

/-- `y mod m` for `m > 0`: the value in `[0, m)` congruent to `y` (00_scope.md R10). -/
noncomputable def realMod (y m : ℝ) : ℝ := y - m * ⌊y / m⌋

/-- What the host sees of the block: the sample port and the outcome of the latest operation
(10_state.md R31). -/
structure Observation where
  port : Nat
  outcome : Option OpResult
deriving DecidableEq, Repr

/-- The observation of a state (10_state.md R31). -/
def observe (s : State) : Observation := { port := s.out, outcome := s.result }

end Sys2Proof.Machine
end

