-- ==== Sys2Proof/Certificates/Slice0/Obligations.lean ====
section
/-! DEFINITION. The statements for the provers. Each docstring names the rule of spec/ it formalises. A
statement over every state holds for every parameter choice (log 1). -/

open Sys2Proof Sys2Proof.Machine

/-! ## Encoding -/

/-- 30_encoding.md R66 and 60_exceptions.md R174: exactly the illegal words are rejected, applying one
reports IllegalOperation and changes nothing else, and the reserved waveform codes 6 and 7 are legal
words that fail with InvalidWaveform when executed. -/
def Obligations.IllegalWordsAreExactlyTheRejected : Prop :=
  (∀ w : Word, IllegalWord w ↔ ∃ e, decode w = .error e) ∧
  (∀ (s : State) (w : Word) (rest : List Word), s.pending = w :: rest → IllegalWord w →
    step s = .next { s with pending := rest, result := some (.error .illegalOperation) }) ∧
  (∀ (s : State) (sel : BitVec 3), 6 ≤ sel.toNat →
    decode (encode (.setWaveform sel)) = .ok (.setWaveform sel) ∧
    exec (.setWaveform sel) s = .next { s with result := some (.error .invalidWaveform) })

/-- 30_encoding.md R67, which the spec marks as its own derivation "[derived: from rules R60 to R66]":
what the decoder gives on every word, and that encoding what a legal word decodes to gives the word. -/
def Obligations.DecoderReadsEveryWordAndEncodeInverts : Prop :=
  ∀ w : Word,
    (w.toNat / 2 ^ 48 % 2 ^ 12 = 0 →
      (w.toNat / 2 ^ 60 = 1 → w.toNat % 2 ^ 48 < 2 →
        decode w = .ok (.tick (decide (w.toNat % 2 = 1)))) ∧
      (w.toNat / 2 ^ 60 = 2 → w.toNat % 2 ^ 48 < 8 →
        decode w = .ok (.setWaveform (BitVec.ofNat 3 w.toNat))) ∧
      (w.toNat / 2 ^ 60 = 3 → decode w = .ok (.setFrequency (BitVec.ofNat 48 w.toNat))) ∧
      (w.toNat / 2 ^ 60 = 4 → w.toNat % 2 ^ 48 = 0 → decode w = .ok .resetAssert) ∧
      (w.toNat / 2 ^ 60 = 5 → w.toNat % 2 ^ 48 = 0 → decode w = .ok .resetRelease)) ∧
    (IllegalWord w → ∃ e, decode w = .error e) ∧
    ∀ i, decode w = .ok i → encode i = w

/-- The other direction of the inverse of 30_encoding.md R67: every operation, with every value of its
operand, is what its word decodes to. -/
def Obligations.EveryOperationRoundTrips : Prop :=
  ∀ i : Instr, i.wf = true → decode (encode i) = .ok i

/-- 30_encoding.md R62, R63 and R65: which words are TICK, SET_WAVEFORM, RESET_ASSERT and RESET_RELEASE,
the waveform each code names (10_state.md R23), and that the reserved codes 6 and 7 name none, decode and
fail when executed with InvalidWaveform. -/
def Obligations.OperandsFixTheWord : Prop :=
  (waveOfCode 0 = some .sine ∧ waveOfCode 1 = some .square ∧ waveOfCode 2 = some .triangle ∧
    waveOfCode 3 = some .sawtooth ∧ waveOfCode 4 = some .pwm ∧ waveOfCode 5 = some .noise ∧
    waveOfCode 6 = none ∧ waveOfCode 7 = none) ∧
  ∀ w : Word,
    (∀ r, decode w = .ok (.tick r) ↔ w.toNat = 0x1000000000000000 + r.toNat) ∧
    (∀ sel, decode w = .ok (.setWaveform sel) ↔ w.toNat = 0x2000000000000000 + sel.toNat) ∧
    (decode w = .ok .resetAssert ↔ w = 0x4000000000000000) ∧
    (decode w = .ok .resetRelease ↔ w = 0x5000000000000000) ∧
    (∀ (s : State) (sel : BitVec 3), 6 ≤ sel.toNat → decode w = .ok (.setWaveform sel) →
      exec (.setWaveform sel) s = .next { s with result := some (.error .invalidWaveform) })

/-- 30_encoding.md R64: which words are SET_FREQUENCY, that the operand is exactly `F / 2^16`, that every
multiple of `2^-16` in `[0, 2^32)` has exactly one field, and the rule's three examples. -/
def Obligations.FrequencyFieldIsExact : Prop :=
  (∀ (w : Word) (F : BitVec 48),
    decode w = .ok (.setFrequency F) ↔ w.toNat = 0x3000000000000000 + F.toNat) ∧
  (∀ F : BitVec 48, freqOfField F = (F.toNat : ℚ) / 2 ^ 16 ∧ 0 ≤ freqOfField F ∧
    freqOfField F ≤ (2 ^ 48 - 1) / 2 ^ 16) ∧
  (∀ n : ℕ, (n : ℚ) / 2 ^ 16 < 2 ^ 32 → ∃! F : BitVec 48, freqOfField F = (n : ℚ) / 2 ^ 16) ∧
  (freqOfField 0x000001B80000 = 440 ∧ decode 0x3000000001B80000 = .ok (.setFrequency 0x000001B80000)) ∧
  (freqOfField 0x016E36000000 = 24000000 ∧
    decode 0x3000016E36000000 = .ok (.setFrequency 0x016E36000000)) ∧
  (freqOfField 0x00000B71B000 = 29296875 / 10000 ∧
    decode 0x300000000B71B000 = .ok (.setFrequency 0x00000B71B000))

/-- 30_encoding.md R71: byte `k` of a word is `w[8k+7 : 8k]`, a stream of words is read back from its
bytes, and the rule's example. -/
def Obligations.StreamBytesCarryTheWords : Prop :=
  (∀ (w : Word) (k : ℕ), k < 8 →
    ((bytesOfWord w)[k]?).map BitVec.toNat = some (w.toNat / 2 ^ (8 * k) % 256)) ∧
  (∀ w : Word, (bytesOfWord w).length = 8) ∧
  (∀ ws : List Word, wordsOfBytes (bytesOfWords ws) = .ok ws) ∧
  bytesOfWord 0x3000000001B80000 = [0x00, 0x00, 0xB8, 0x01, 0x00, 0x00, 0x00, 0x30]

/-- Words written out from 30_encoding.md R61 to R65 decode to the operations they stand for. -/
def Obligations.SampleWordsDecode : Prop :=
  decode 0x1000000000000000 = .ok (.tick false) ∧ decode 0x1000000000000001 = .ok (.tick true) ∧
  decode 0x2000000000000005 = .ok (.setWaveform 5) ∧
  decode 0x3000016E36000000 = .ok (.setFrequency 0x016E36000000) ∧
  decode 0x4000000000000000 = .ok .resetAssert ∧ decode 0x5000000000000000 = .ok .resetRelease

/-! ## The step -/

/-- 00_scope.md R12 through the model's queue (log 3): where the next issued word decodes to an operation,
the step is that operation's meaning at the state without the word. -/
def Obligations.StepRunsTheDecodedOperation : Prop :=
  ∀ (s : State) (w : Word) (rest : List Word) (i : Instr),
    s.pending = w :: rest → decode w = .ok i → step s = exec i { s with pending := rest }

/-- 60_exceptions.md R184 through the model's queue (log 6): with nothing issued the state stays as it is,
and operations issued later resume from it. -/
def Obligations.IdleStepKeepsTheState : Prop :=
  ∀ (s : State), s.pending = [] →
    step s = .next s ∧
    ∀ (i : Instr), step (enqueue [encode i] s) = exec i s

/-- TICK, RESET_ASSERT and RESET_RELEASE never fail, a TICK that wraps or holds the sample included
(60_exceptions.md R178), and no operation and no step stops. The last two clauses are the model's
reading of the spec: a failed operation is a next state (log 5, DEDUCED), and so is a step with nothing
issued (log 6, DEDUCED). -/
def Obligations.NoOperationStops : Prop :=
  (∀ (s : State) (r : Bool), ∃ t, exec (.tick r) s = .next t ∧ t.result = some (.sample t.out)) ∧
  (∀ s : State, ∃ t, exec .resetAssert s = .next t ∧ t.result = some .ok) ∧
  (∀ s : State, ∃ t, exec .resetRelease s = .next t ∧ t.result = some .ok) ∧
  (∀ (s : State) (i : Instr), ∃ t, exec i s = .next t) ∧
  ∀ s : State, ∃ t, step s = .next t

/-- 60_exceptions.md R170: every operation ends with exactly one outcome; which one each error is raised
by and on what condition, and the numeric codes. IllegalOperation is the outcome of an illegal word and
of no decoded operation. -/
def Obligations.OutcomesFollowTheirTable : Prop :=
  (∀ (i : Instr) (s t : State), s.par.legal → exec i s = .next t →
    (∃ r, t.result = some r) ∧
    (t.result = some (.error .frequencyOutOfRange) ↔
      ∃ F, i = .setFrequency F ∧ s.par.policy = .reject ∧ 2 ^ s.par.W - 1 < ftwRaw s.par (freqOfField F)) ∧
    (t.result = some (.error .frequencyOutOfRange) ↔
      ∃ F, i = .setFrequency F ∧ s.par.policy = .reject ∧ s.par.FS ≤ freqOfField F) ∧
    (t.result = some (.error .invalidWaveform) ↔ i = .setWaveform 6 ∨ i = .setWaveform 7) ∧
    t.result ≠ some (.error .illegalOperation)) ∧
  (∀ (s t : State) (w : Word) (rest : List Word), s.pending = w :: rest → step s = .next t →
    (t.result = some (.error .illegalOperation) ↔ IllegalWord w)) ∧
  outcomeCode .ok = 0 ∧ (∀ v, outcomeCode (.sample v) = 0) ∧
  outcomeCode (.error .frequencyOutOfRange) = 1 ∧ outcomeCode (.error .invalidWaveform) = 2 ∧
  outcomeCode (.error .illegalOperation) = 3

/-- 60_exceptions.md R176: an operation that fails leaves every register as it was, and nothing of the
error is kept: what an operation does never depends on the outcome reported before it. -/
def Obligations.FailedOperationChangesNothing : Prop :=
  (∀ (i : Instr) (s t : State) (e : OpError), exec i s = .next t → t.result = some (.error e) →
    t = { s with result := some (.error e) }) ∧
  (∀ (s t : State) (w : Word) (rest : List Word) (e : OpError), s.pending = w :: rest →
    step s = .next t → t.result = some (.error e) →
    t = { s with pending := rest, result := some (.error e) }) ∧
  ∀ (i : Instr) (s : State) (r : Option OpResult), exec i { s with result := r } = exec i s

/-- The write column of 10_state.md R30, which the spec marks as its own derivation: the registers an
operation does not write, and the parameters and the issued words, are unchanged by it. -/
def Obligations.OperationsWriteOnlyTheirRegisters : Prop :=
  ∀ (s t : State),
    (∀ r, exec (.tick r) s = .next t → t.wave = s.wave ∧ t.fout = s.fout ∧ t.rst = r) ∧
    (∀ sel, exec (.setWaveform sel) s = .next t →
      t.count = s.count ∧ t.out = s.out ∧ t.fout = s.fout ∧ t.rst = s.rst) ∧
    (∀ F, exec (.setFrequency F) s = .next t →
      t.count = s.count ∧ t.out = s.out ∧ t.wave = s.wave ∧ t.rst = s.rst) ∧
    (exec .resetAssert s = .next t → t.wave = s.wave ∧ t.fout = s.fout) ∧
    (exec .resetRelease s = .next t →
      t.count = s.count ∧ t.out = s.out ∧ t.wave = s.wave ∧ t.fout = s.fout) ∧
    (∀ i, exec i s = .next t → t.par = s.par ∧ t.pending = s.pending)

/-- The model's own fields are the host's side of the interface only (log 3, log 4): what an operation
does to the registers depends neither on the words issued after it nor on the outcome before it. -/
def Obligations.HostFieldsNeverReachTheRegisters : Prop :=
  ∀ (i : Instr) (s t : State) (ws : List Word) (r : Option OpResult), exec i s = .next t →
    exec i { s with pending := ws, result := r } = .next { t with pending := ws }

/-! ## The phase accumulator family -/

/-- 42_phase_accumulator.md R120, R121, R123, R124 and R125: TICK for both levels of `r`, the whole next
state, and R120's example at the defaults. -/
def Obligations.TickFollowsItsRule : Prop :=
  (∀ s : State, exec (.tick true) s =
    .next { s with rst := true, count := 0, out := s.par.outInit,
                   result := some (.sample s.par.outInit) }) ∧
  (∀ s : State, s.par.A ≤ s.par.W → s.count < 2 ^ s.par.W →
    ∀ o : ℕ,
      o = (match s.wave with
        | .sine => tableRead s.par.A s.par.B .sine (s.count / 2 ^ (s.par.W - s.par.A))
        | .square => tableRead s.par.A s.par.B .square (s.count / 2 ^ (s.par.W - s.par.A))
        | .triangle => tableRead s.par.A s.par.B .triangle (s.count / 2 ^ (s.par.W - s.par.A))
        | .sawtooth => tableRead s.par.A s.par.B .sawtooth (s.count / 2 ^ (s.par.W - s.par.A))
        | .pwm => s.out
        | .noise => s.out) →
      exec (.tick false) s =
        .next { s with rst := false, out := o, count := (s.count + ftu s.par s.fout) % 2 ^ s.par.W,
                       result := some (.sample o) }) ∧
  (∀ s : State, s.par = Params.defaults → s.count = 0 → s.wave = .sine → s.fout = 440 →
    ftu s.par s.fout = 153 ∧
    exec (.tick false) s =
      .next { s with rst := false, out := 2048, count := 153, result := some (.sample 2048) })

/-- 42_phase_accumulator.md R122: the address is the top `A` bits of the accumulator, bits 23 to 12 at the
defaults, and the bits below it select nothing. -/
def Obligations.AddressIsTheTopBits : Prop :=
  (∀ (p : Params) (count : ℕ), p.A ≤ p.W → count < 2 ^ p.W →
    addr p count = count / 2 ^ (p.W - p.A) ∧ addr p count < p.N) ∧
  (∀ count : BitVec 24, addr Params.defaults count.toNat = (count.extractLsb' 12 12).toNat) ∧
  (∀ (s t : State) (c : ℕ), s.count / 2 ^ (s.par.W - s.par.A) = c / 2 ^ (s.par.W - s.par.A) →
    exec (.tick false) s = .next t →
    ∃ t', exec (.tick false) { s with count := c } = .next t' ∧ t'.out = t.out ∧ t'.result = t.result)

/-- 42_phase_accumulator.md R126: RESET_ASSERT, the whole next state, that it changes no register where
the reset is held already, and the rule's example. -/
def Obligations.ResetAssertFollowsItsRule : Prop :=
  (∀ s : State, exec .resetAssert s =
    .next { s with rst := true, count := 0, out := s.par.outInit, result := some .ok }) ∧
  (∀ s : State, Good s → s.rst = true → exec .resetAssert s = .next { s with result := some .ok }) ∧
  (∀ s : State, s.count = 4590 → s.out = 2051 →
    ∃ t, exec .resetAssert s = .next t ∧ t.count = 0 ∧ t.out = s.par.outInit)

/-- 42_phase_accumulator.md R127: RESET_RELEASE, the whole next state, that it changes no register where
the reset is not held, that the held values stay until a TICK with `r = 0`, and the rule's example. -/
def Obligations.ResetReleaseFollowsItsRule : Prop :=
  (∀ s : State, exec .resetRelease s = .next { s with rst := false, result := some .ok }) ∧
  (∀ s : State, s.rst = false → exec .resetRelease s = .next { s with result := some .ok }) ∧
  (∀ (i : Instr) (s t : State), s.count = 0 → s.out = s.par.outInit → i ≠ .tick false →
    exec i s = .next t → t.count = 0 ∧ t.out = t.par.outInit) ∧
  (∀ s : State, s.wave = .sine → ∃ a b c, exec .resetAssert s = .next a ∧
    exec .resetRelease a = .next b ∧ exec (.tick false) b = .next c ∧
    c.result = some (.sample (tableRead s.par.A s.par.B .sine 0)))

/-- 42_phase_accumulator.md R130, which the spec marks as its own derivation: counting from an accumulator
at 0, with a table waveform, TICK `k + 1` emits the entry at the top bits of `k * inc` and leaves
`(k + 1) * inc`, both modulo `2^W`. Stated over a run of the whole machine. -/
def Obligations.SamplesFollowThePhase : Prop :=
  ∀ (k : ℕ) (s : State) (tb : Table) (rest : List Word), s.par.A ≤ s.par.W → s.count = 0 →
    waveTable s.wave = some tb →
    s.pending = List.replicate (k + 1) (encode (.tick false)) ++ rest →
    ∃ t : State, Host.Core.run core (k + 1) s = .next t ∧
      t.result = some (.sample (tableRead s.par.A s.par.B tb
        (k * ftu s.par s.fout % 2 ^ s.par.W / 2 ^ (s.par.W - s.par.A)))) ∧
      t.count = (k + 1) * ftu s.par s.fout % 2 ^ s.par.W ∧
      t.wave = s.wave ∧ t.fout = s.fout ∧ t.par = s.par ∧ t.pending = rest

/-- 42_phase_accumulator.md R131, which the spec marks as its own derivation: with a tuning word below one
address step, the address moves by 0 or 1 modulo `N` at each TICK. -/
def Obligations.SlowPhaseSkipsNoAddress : Prop :=
  ∀ s : State, s.par.A ≤ s.par.W → s.count < 2 ^ s.par.W →
    ftu s.par s.fout < 2 ^ (s.par.W - s.par.A) →
    ∃ t, exec (.tick false) s = .next t ∧
      (addr t.par t.count = addr s.par s.count ∨
        addr t.par t.count = (addr s.par s.count + 1) % s.par.N)

/-- 42_phase_accumulator.md R132, which the spec marks as its own derivation: the wrap, with no error. -/
def Obligations.AccumulatorWraps : Prop :=
  ∀ (s : State) (inc : ℕ), inc = ftu s.par s.fout → inc < 2 ^ s.par.W →
    (s.count + inc = 2 ^ s.par.W →
      ∃ t, exec (.tick false) s = .next t ∧ t.count = 0 ∧ t.result = some (.sample t.out)) ∧
    (s.count < 2 ^ s.par.W → 2 ^ s.par.W ≤ s.count + inc →
      ∃ t, exec (.tick false) s = .next t ∧ t.count = s.count + inc - 2 ^ s.par.W ∧
        t.result = some (.sample t.out))

/-- 42_phase_accumulator.md R133, which the spec marks as its own derivation: with `inc > 0`, after `k`
TICKs the accumulator is back where it was exactly when `k` is a multiple of `2^W / gcd(inc, 2^W)`.
Stated over a run of the whole machine, for every waveform. -/
def Obligations.PhasePeriodIsExact : Prop :=
  ∀ (k : ℕ) (s : State), s.count < 2 ^ s.par.W → 0 < ftu s.par s.fout →
    s.pending = List.replicate k (encode (.tick false)) →
    ∃ t : State, Host.Core.run core k s = .next t ∧
      (t.count = s.count ↔ 2 ^ s.par.W / Nat.gcd (ftu s.par s.fout) (2 ^ s.par.W) ∣ k)

/-- 42_phase_accumulator.md R129, which the spec marks as its own derivation: over any number of TICKs
the accumulator moves the same under every waveform, PWM and NOISE included. -/
def Obligations.PhaseIgnoresTheWaveform : Prop :=
  ∀ (k : ℕ) (s : State) (v : Wave), s.pending = List.replicate k (encode (.tick false)) →
    ∃ t t' : State, Host.Core.run core k s = .next t ∧
      Host.Core.run core k { s with wave := v } = .next t' ∧
      t'.count = t.count ∧ t'.wave = v ∧ ((v = .pwm ∨ v = .noise) → t'.out = s.out)

/-- 42_phase_accumulator.md R134, which the spec marks as its own derivation: the first TICK with `r = 0`
after a reset emits the entry at address 0, or OUT_INIT under PWM and NOISE, and leaves `count = inc`. -/
def Obligations.FirstTickAfterResetStartsAtPhaseZero : Prop :=
  ∀ s : State, Good s → s.rst = true →
    ∃ t, exec (.tick false) s = .next t ∧ t.rst = false ∧ t.count = ftu s.par s.fout ∧
      t.result = some (.sample t.out) ∧
      (∀ tb, waveTable s.wave = some tb → t.out = tableRead s.par.A s.par.B tb 0) ∧
      (waveTable s.wave = none → t.out = s.par.outInit)

/-- 70_reset_and_hazards.md R194: the sample of the first TICK after a frequency change does not depend
on the new frequency; the second TICK's sample comes from the accumulator moved at the new rate. -/
def Obligations.SampleLagsTheFrequencyByOneTick : Prop :=
  ∀ (s t : State) (f : Rat), exec (.tick false) s = .next t →
    ∃ t' u, exec (.tick false) { s with fout := f } = .next t' ∧ t'.out = t.out ∧
      exec (.tick false) t' = .next u ∧
      ∀ tb, waveTable s.wave = some tb →
        u.out = tableRead s.par.A s.par.B tb (addr s.par ((s.count + ftu s.par f) % 2 ^ s.par.W))

/-! ## The waveform and frequency families -/

/-- 43_waveform_state.md R150 and R153, with the numeric codes of 10_state.md R23 and 30_encoding.md R63:
SET_WAVEFORM, the whole next state for every code, in every state (a held reset included), the freeze of
`out` under PWM and NOISE, and R150's example with its word. -/
def Obligations.SetWaveformFollowsItsRule : Prop :=
  (waveCode .sine = 0 ∧ waveCode .square = 1 ∧ waveCode .triangle = 2 ∧ waveCode .sawtooth = 3 ∧
    waveCode .pwm = 4 ∧ waveCode .noise = 5) ∧
  (∀ s : State,
    exec (.setWaveform 0) s = .next { s with wave := .sine, result := some .ok } ∧
    exec (.setWaveform 1) s = .next { s with wave := .square, result := some .ok } ∧
    exec (.setWaveform 2) s = .next { s with wave := .triangle, result := some .ok } ∧
    exec (.setWaveform 3) s = .next { s with wave := .sawtooth, result := some .ok } ∧
    exec (.setWaveform 4) s = .next { s with wave := .pwm, result := some .ok } ∧
    exec (.setWaveform 5) s = .next { s with wave := .noise, result := some .ok } ∧
    exec (.setWaveform 6) s = .next { s with result := some (.error .invalidWaveform) } ∧
    exec (.setWaveform 7) s = .next { s with result := some (.error .invalidWaveform) }) ∧
  (∀ (s : State) (v : Wave), exec (.setWaveform (waveCode v)) s =
    .next { s with wave := v, result := some .ok }) ∧
  (∀ sel : BitVec 3, sel.toNat ≤ 5 → ∃ v, waveCode v = sel) ∧
  (∀ (s : State) (sel : BitVec 3), 5 < sel.toNat → exec (.setWaveform sel) s =
    .next { s with result := some (.error .invalidWaveform) }) ∧
  (∀ s : State, exec (.setWaveform (waveCode s.wave)) s = .next { s with result := some .ok }) ∧
  (∀ (s : State) (sel : BitVec 3), sel = 4 ∨ sel = 5 →
    ∃ t u, exec (.setWaveform sel) s = .next t ∧ exec (.tick false) t = .next u ∧ u.out = s.out) ∧
  decode 0x2000000000000001 = .ok (.setWaveform 1) ∧
  (∀ s : State, s.par = Params.defaults → s.count = 8388608 → s.wave = .sine →
    ∃ t u, exec (.setWaveform 1) s = .next t ∧ t.out = s.out ∧
      exec (.tick false) t = .next u ∧ u.result = some (.sample 0))

/-- 43_waveform_state.md R152: a step that changes the waveform is a SET_WAVEFORM of its code. -/
def Obligations.OnlySetWaveformChangesTheWaveform : Prop :=
  ∀ s t : State, step s = .next t → t.wave ≠ s.wave →
    ∃ rest, s.pending = encode (.setWaveform (waveCode t.wave)) :: rest

/-- 41_frequency_tuning.md R103 and 60_exceptions.md R172: SET_FREQUENCY for every exact frequency, the
whole next state, its word form, the rule's corner cases and its example. -/
def Obligations.SetFrequencyFollowsItsRule : Prop :=
  (∀ (F : BitVec 48) (s : State), exec (.setFrequency F) s = setFrequencyTo ((F.toNat : ℚ) / 2 ^ 16) s) ∧
  (∀ (F : BitVec 48) (s : State),
    ¬ (s.par.policy = .reject ∧ 2 ^ s.par.W - 1 < ftwRaw s.par ((F.toNat : ℚ) / 2 ^ 16)) →
    exec (.setFrequency F) s = .next { s with fout := (F.toNat : ℚ) / 2 ^ 16, result := some .ok }) ∧
  (∀ (f : Rat) (s : State), s.par.policy = .reject → 2 ^ s.par.W - 1 < ftwRaw s.par f →
    setFrequencyTo f s = .next { s with result := some (.error .frequencyOutOfRange) }) ∧
  (∀ (f : Rat) (s : State), ¬ (s.par.policy = .reject ∧ 2 ^ s.par.W - 1 < ftwRaw s.par f) →
    setFrequencyTo f s = .next { s with fout := f, result := some .ok }) ∧
  (∀ (f : Rat) (s : State), s.par.legal → s.par.policy = .reject → 0 ≤ f →
    (s.par.FS ≤ f ↔ setFrequencyTo f s = .next { s with result := some (.error .frequencyOutOfRange) })) ∧
  (∀ p : Params, p.legal → ftu p 0 = 0 ∧
    (∀ f, p.FS * (2 ^ p.W - 1) / 2 ^ p.W ≤ f → f < p.FS → ftu p f = 2 ^ p.W - 1) ∧
    (p.policy = .wrap → ftu p p.FS = 0) ∧ (p.policy = .clamp → ftu p p.FS = 2 ^ p.W - 1)) ∧
  (∀ s : State, s.par = Params.defaults →
    exec (.setFrequency 0x000001B80000) s = .next { s with fout := 440, result := some .ok } ∧
    ftu s.par 440 = 153)

/-! ## The tuning unit -/

/-- 41_frequency_tuning.md R100: both forms of the raw tuning word, over exact rationals. -/
def Obligations.RawTuningWordIsTheExactFloor : Prop :=
  ∀ (p : Params) (f : Rat), p.legal → 0 ≤ f →
    (ftwRaw p f : ℤ) = ⌊(p.N : ℚ) * f * 2 ^ (p.W - p.A) / p.FS⌋ ∧
    (ftwRaw p f : ℤ) = ⌊f * 2 ^ p.W / p.FS⌋

/-- 41_frequency_tuning.md R101: the tuning word under each policy, and that it is a `W`-bit value for
every frequency the machine can hold. -/
def Obligations.TuningWordFollowsThePolicy : Prop :=
  (∀ (p : Params) (f : Rat),
    (p.policy = .reject → ftu p f = ftwRaw p f) ∧
    (p.policy = .wrap → ftu p f = ftwRaw p f % 2 ^ p.W) ∧
    (p.policy = .clamp → ftu p f = min (ftwRaw p f) (2 ^ p.W - 1))) ∧
  ∀ s : State, Good s → ftu s.par s.fout < 2 ^ s.par.W

/-- 41_frequency_tuning.md R102, which the spec marks as its own derivation: the raw tuning word is in
range exactly below FS, so `reject` accepts exactly the frequencies below FS. -/
def Obligations.TuningWordInRangeExactlyBelowFS : Prop :=
  ∀ (p : Params) (f : Rat), p.legal → 0 ≤ f →
    (ftwRaw p f ≤ 2 ^ p.W - 1 ↔ f < p.FS) ∧
    (p.policy = .reject → (frequencyAccepted p f = true ↔ f < p.FS))

/-- 41_frequency_tuning.md R105, which the spec marks as its own derivation: the raw tuning word is
monotone and doubles within one, and the tuning word is monotone where it does not wrap. -/
def Obligations.TuningIsMonotoneAndNearlyLinear : Prop :=
  ∀ (p : Params) (f g : Rat), p.legal → 0 ≤ f → f ≤ g →
    ftwRaw p f ≤ ftwRaw p g ∧
    (2 * ftwRaw p f ≤ ftwRaw p (2 * f) ∧ ftwRaw p (2 * f) ≤ 2 * ftwRaw p f + 1) ∧
    (p.policy ≠ .wrap → ftu p f ≤ ftu p g)

/-- 41_frequency_tuning.md R104, which the spec marks as its own derivation: where the raw word is in
range, the frequency the tuning word stands for is at most `fout` and within `FS / 2^W` of it. -/
def Obligations.ActualFrequencyIsWithinOneStep : Prop :=
  ∀ s : State, Good s → ftwRaw s.par s.fout < 2 ^ s.par.W →
    (ftu s.par s.fout : ℚ) * s.par.FS / 2 ^ s.par.W ≤ s.fout ∧
    s.fout - s.par.FS / 2 ^ s.par.W < (ftu s.par s.fout : ℚ) * s.par.FS / 2 ^ s.par.W

/-- 41_frequency_tuning.md R107, which the spec marks as its own derivation: a frequency below one step
gives `inc = 0`; TICK then leaves `count` and emits the entry at its address, so that a table waveform
emits one sample for ever. -/
def Obligations.ZeroTuningFreezesThePhase : Prop :=
  ∀ s : State, Good s → s.fout * 2 ^ s.par.W < s.par.FS →
    ftu s.par s.fout = 0 ∧
    ∀ (k : ℕ) (tb : Table), waveTable s.wave = some tb →
      s.pending = List.replicate (k + 1) (encode (.tick false)) →
      ∃ t : State, Host.Core.run core (k + 1) s = .next t ∧ t.count = s.count ∧
        t.out = tableRead s.par.A s.par.B tb (s.count / 2 ^ (s.par.W - s.par.A))

/-- The first sentences of 41_frequency_tuning.md R108 (its decision is 92_eei_decisions.md D32): no
limit at half of FS; at `FS / 2` the accumulator alternates between two values `2^(W-1)` apart. -/
def Obligations.NoHalfRateLimit : Prop :=
  (∀ (s : State) (f : Rat), s.par.legal → s.par.policy = .reject → 0 ≤ f → f < s.par.FS →
    setFrequencyTo f s = .next { s with fout := f, result := some .ok }) ∧
  ∀ s : State, Good s → s.fout = s.par.FS / 2 →
    ∃ t u, exec (.tick false) s = .next t ∧ exec (.tick false) t = .next u ∧
      (t.count = s.count + 2 ^ (s.par.W - 1) ∨ s.count = t.count + 2 ^ (s.par.W - 1)) ∧
      u.count = s.count

/-! ## The wavetables -/

/-- 40_wavetable.md R82: every entry of SINE is the exact real value rounded half to even, with the
rule's range, corner cases and examples. -/
def Obligations.SineTableIsTheRoundedSine : Prop :=
  (∀ A B x : ℕ, 1 ≤ B → x < 2 ^ A →
    IsRoundHalfEven (((2 : ℝ) ^ B - 1) * (1 / 2) * (Real.sin (2 * Real.pi * x / 2 ^ A) + 1))
      (tableEntry A B .sine x) ∧
    0 ≤ tableEntry A B .sine x ∧ tableEntry A B .sine x ≤ 2 ^ B - 1) ∧
  (∀ A B : ℕ, 1 ≤ B →
    tableEntry A B .sine 0 = (if B = 1 then 0 else 2 ^ (B - 1)) ∧
    tableEntry (A + 1) B .sine (2 ^ A) = (if B = 1 then 0 else 2 ^ (B - 1)) ∧
    tableEntry (A + 2) B .sine (2 ^ A) = 2 ^ B - 1 ∧
    tableEntry (A + 2) B .sine (3 * 2 ^ A) = 0) ∧
  tableEntry 12 12 .sine 0 = 2048 ∧ tableEntry 12 12 .sine 1 = 2051 ∧
  tableEntry 12 12 .sine 1024 = 4095 ∧ tableEntry 12 12 .sine 2048 = 2048 ∧
  tableEntry 12 12 .sine 3072 = 0

/-- 40_wavetable.md R83: SQUARE, with the one-entry table and the rule's examples. -/
def Obligations.SquareTableFollowsItsRule : Prop :=
  (∀ A B x : ℕ, x < 2 ^ A →
    ((x : ℚ) < 2 ^ A / 2 → tableEntry A B .square x = 2 ^ B - 1) ∧
    ((2 : ℚ) ^ A / 2 ≤ x → tableEntry A B .square x = 0)) ∧
  (∀ B, tableEntry 0 B .square 0 = 2 ^ B - 1) ∧
  tableEntry 12 12 .square 2047 = 4095 ∧ tableEntry 12 12 .square 2048 = 0

/-- 40_wavetable.md R84: TRIANGLE is the exact value rounded half to even and clamped, with the rule's
corner cases and example. -/
def Obligations.TriangleTableFollowsItsRule : Prop :=
  (∀ A B x : ℕ, x < 2 ^ A →
    IsRoundHalfEven ((2 : ℝ) ^ A / 2
        + 2 * ((2 : ℝ) ^ B - 1) / 2 ^ A * |realMod (x + (2 : ℝ) ^ A / 4) (2 ^ A) - (2 : ℝ) ^ A / 2|
        - ((2 : ℝ) ^ B - 1) / 2)
      (triangleRaw A B x) ∧
    tableEntry A B .triangle x = min (max (triangleRaw A B x) 0) (2 ^ B - 1)) ∧
  triangleRaw 12 12 3072 = 4096 ∧ tableEntry 12 12 .triangle 3072 = 4095 ∧
  tableEntry 12 12 .triangle 1024 = 0 ∧ tableEntry 12 12 .triangle 0 = 2048

/-- 40_wavetable.md R85: SAWTOOTH is the exact value rounded half to even, with the rule's two forms,
range and corner cases. -/
def Obligations.SawtoothTableFollowsItsRule : Prop :=
  (∀ A B x : ℕ, 1 ≤ B → x < 2 ^ A →
    IsRoundHalfEven (((2 : ℝ) ^ B - 1) * (x / 2 ^ A - ⌊(1 / 2 : ℝ) + x / 2 ^ A⌋) + ((2 : ℝ) ^ B - 1) / 2)
      (tableEntry A B .sawtooth x) ∧
    ((x : ℝ) < 2 ^ A / 2 → ⌊(1 / 2 : ℝ) + x / 2 ^ A⌋ = 0) ∧
    ((2 : ℝ) ^ A / 2 ≤ x → ⌊(1 / 2 : ℝ) + x / 2 ^ A⌋ = 1) ∧
    0 ≤ ((2 : ℝ) ^ B - 1) * (x / 2 ^ A - ⌊(1 / 2 : ℝ) + x / 2 ^ A⌋) + ((2 : ℝ) ^ B - 1) / 2 ∧
    ((2 : ℝ) ^ B - 1) * (x / 2 ^ A - ⌊(1 / 2 : ℝ) + x / 2 ^ A⌋) + ((2 : ℝ) ^ B - 1) / 2 < 2 ^ B - 1 ∧
    0 ≤ tableEntry A B .sawtooth x ∧ tableEntry A B .sawtooth x ≤ 2 ^ B - 1) ∧
  tableEntry 12 12 .sawtooth 0 = 2048 ∧ tableEntry 12 12 .sawtooth 2048 = 0 ∧
  tableEntry 12 12 .sawtooth 2047 = 4094 ∧
  ∀ x : ℕ, x < 4096 → tableEntry 12 12 .sawtooth x ≤ 4094

/-- 40_wavetable.md R86, which the spec marks as its own derivation: for every legal depth every entry of
every table is in `[0, AMP]`, so the generator's range check passes and a ROM read gives the whole entry. -/
def Obligations.TablesStayInRange : Prop :=
  ∀ A B : ℕ, 1 ≤ B →
    (∀ (t : Table) (x : ℕ), x < 2 ^ A →
      0 ≤ tableEntry A B t x ∧ tableEntry A B t x ≤ 2 ^ B - 1 ∧
      (tableRead A B t x : ℤ) = tableEntry A B t x) ∧
    tablesInRange A B = true

/-- 40_wavetable.md R87, which the spec marks as its own derivation: the only ties of SINE are at
`x = 0` and `x = N/2`. -/
def Obligations.SineTiesOnlyAtTheZeros : Prop :=
  ∀ A B x m : ℕ, 1 ≤ B → x < 2 ^ A → sineHalfCmp A B x m = .eq → x = 0 ∨ 2 * x = 2 ^ A

/-- 40_wavetable.md R88, which the spec marks as its own derivation: SINE's symmetry. -/
def Obligations.SineTableIsSymmetric : Prop :=
  ∀ A B x : ℕ, 2 ≤ A → 1 ≤ B → 0 < x → x < 2 ^ (A - 1) →
    tableEntry A B .sine (2 ^ (A - 1) - x) = tableEntry A B .sine x ∧
    tableEntry A B .sine (2 ^ (A - 1) + x) = 2 ^ B - 1 - tableEntry A B .sine x

/-- 40_wavetable.md R89 and R90, which the spec marks as its own derivations: TRIANGLE and SAWTOOTH at the
defaults in closed form. -/
def Obligations.ClosedFormsAtTheDefaults : Prop :=
  (∀ x u : ℕ, x < 4096 → (u : ℤ) = |(((x + 1024) % 4096 : ℕ) : ℤ) - 2048| →
    (u = 0 → tableEntry 12 12 .triangle x = 0) ∧
    (u = 2048 → tableEntry 12 12 .triangle x = 4095) ∧
    (0 < u → u < 2048 → tableEntry 12 12 .triangle x = (4095 * u / 2048 + 1 : ℕ))) ∧
  tableEntry 12 12 .sawtooth 0 = 2048 ∧
  (∀ x : ℕ, 1 ≤ x → x ≤ 2047 → tableEntry 12 12 .sawtooth x = 2047 + x) ∧
  (∀ x : ℕ, 2048 ≤ x → x ≤ 4095 → tableEntry 12 12 .sawtooth x = (x : ℤ) - 2048)

/-! ## Elaboration, power-on and the invariant -/

/-- 60_exceptions.md R171 and 70_reset_and_hazards.md R190: elaboration fails with InvalidConfig exactly on
the requests R171 lists, and otherwise gives the instance in its power-on state. The types of the
request are the model's (log 10). -/
def Obligations.ElaborationFollowsItsRules : Prop :=
  (∀ r : Request, elaborate r = .fault .invalidConfig ↔
    (¬ ∃ k : ℕ, r.N = 2 ^ k) ∨ r.B ≤ 0 ∨ (∃ k : ℕ, r.N = 2 ^ k ∧ r.W ≤ k) ∨ r.FS ≤ 0 ∨
    r.outInit < 0 ∨ (2 : ℤ) ^ r.B.toNat - 1 < r.outInit ∨ r.policy = none) ∧
  (∀ r : Request, elaborate r ≠ .fault .invalidConfig →
    ∃ p : Params, p.legal ∧ p.request = r ∧
      elaborate r = .next { par := p, count := 0, out := p.outInit, wave := .sine, fout := 0,
                            rst := false, pending := [], result := none }) ∧
  ∀ p : Params, p.legal → elaborate p.request = .next (State.powerOn p)

/-- The model's reset state is what elaboration gives at the defaults of 00_scope.md R8, with nothing
issued and nothing reported (the model's choice of parameters: log 1, log 2). -/
def Obligations.ResetIsTheElaboratedDefaults : Prop :=
  elaborate Params.defaults.request = .next State.reset ∧
  State.reset.count = 0 ∧ State.reset.wave = .sine ∧ State.reset.fout = 0 ∧ State.reset.rst = false

/-- 10_state.md R32: the value of every register at power-on and right after a reset, and that at
power-on `inc = 0`, so the accumulator does not move in any run from power-on without a SET_FREQUENCY. -/
def Obligations.PowerOnAndResetValues : Prop :=
  (∀ p : Params, (State.powerOn p).count = 0 ∧ (State.powerOn p).out = p.outInit ∧
    (State.powerOn p).wave = .sine ∧ (State.powerOn p).fout = 0 ∧ (State.powerOn p).rst = false) ∧
  (∀ (i : Instr) (s t : State), i = .resetAssert ∨ i = .tick true → exec i s = .next t →
    t.count = 0 ∧ t.out = s.par.outInit ∧ t.wave = s.wave ∧ t.fout = s.fout ∧ t.rst = true ∧
    ∀ (tb : Table) (a : ℕ), tableRead t.par.A t.par.B tb a = tableRead s.par.A s.par.B tb a) ∧
  (∀ p : Params, ftu p (State.powerOn p).fout = 0) ∧
  ∀ (ops : List Instr) (p : Params), (∀ F, .setFrequency F ∉ ops) →
    ∃ t : State, Host.Core.run core ops.length { State.powerOn p with pending := ops.map encode } =
      .next t ∧ t.count = 0

/-- 70_reset_and_hazards.md R191, which the spec marks as its own derivation: power-on differs from the
state right after a reset in `rst` only (and in the outcome the host was given). -/
def Obligations.PowerOnIsTheResetStateReleased : Prop :=
  ∀ p : Params,
    exec .resetAssert (State.powerOn p) = .next { State.powerOn p with rst := true, result := some .ok }

/-- The reset state, and the power-on state of every legal instance, satisfy the invariant of the legal
states (Safety.lean; at the model's reset parameters, log 1 and log 2). -/
def Obligations.PowerOnIsGood : Prop :=
  Good State.reset ∧ ∀ p : Params, p.legal → Good (State.powerOn p)

/-- The ranges of 10_state.md R20 to R24 and the held-reset rule of 42_phase_accumulator.md R128 (derived,
the spec says) are an invariant: every step from every legal state leads to a legal state. -/
def Obligations.EveryStepKeepsTheStateGood : Prop :=
  ∀ s t : State, Good s → step s = .next t → Good t

/-! ## Instances and the assembler -/

/-- 60_exceptions.md R182 over the model's list of instances (log 11): a step of one instance is that
instance's own step, and writes no other. -/
def Obligations.InstancesDoNotTouchEachOther : Prop :=
  (∀ (k : ℕ) (sys sys' : List State), stepInstance k sys = .next sys' →
    sys'.length = sys.length ∧ ∀ j : ℕ, j ≠ k → sys'[j]? = sys[j]?) ∧
  ∀ (k : ℕ) (sys : List State) (s : State), sys[k]? = some s →
    ∃ t, step s = .next t ∧ stepInstance k sys = .next (sys.set k t)

/-- 30_encoding.md R70: what each pseudo-instruction expands to, and that no other exists: every mnemonic
the assembler accepts gives a line of 30_encoding.md R69 or one of the four pseudo-instructions. -/
def Obligations.PseudoInstructionsExpand : Prop :=
  (asmWords .reset = asmWords .tickRst ∧ asmWords .hold = asmWords .rstassert ∧
    asmWords .release = asmWords .rstrelease ∧ asmWords (.run 0) = none ∧
    ∀ k : ℕ, 1 ≤ k → ∃ w, asmWords .tick = some [w] ∧ asmWords (.run k) = some (List.replicate k w)) ∧
  (∀ (m : List Char) (l : AsmLine), readPlain m = some l ↔
    (m = ['t', 'i', 'c', 'k'] ∧ l = .tick) ∨
    (m = ['r', 's', 't', 'a', 's', 's', 'e', 'r', 't'] ∧ l = .rstassert) ∨
    (m = ['r', 's', 't', 'r', 'e', 'l', 'e', 'a', 's', 'e'] ∧ l = .rstrelease) ∨
    (m = ['r', 'e', 's', 'e', 't'] ∧ l = .reset) ∨
    (m = ['h', 'o', 'l', 'd'] ∧ l = .hold) ∨
    (m = ['r', 'e', 'l', 'e', 'a', 's', 'e'] ∧ l = .release)) ∧
  (∀ (m arg : List Char) (l : AsmLine), readWithOperand m arg = some l →
    (m = ['t', 'i', 'c', 'k'] ∧ arg = ['r', 's', 't'] ∧ l = .tickRst) ∨
    (m = ['s', 'e', 't', 'w', 'a', 'v', 'e'] ∧
      ((∃ v, l = .setwaveName v) ∨ ∃ k, l = .setwaveCode k)) ∨
    (m = ['s', 'e', 't', 'f', 'r', 'e', 'q'] ∧ ∃ v, readDecimal arg = some v ∧ l = .setfreq v) ∨
    (m = ['.', 'w', 'o', 'r', 'd'] ∧ ∃ w, readWord arg = some w ∧ l = .word w) ∨
    (m = ['r', 'u', 'n'] ∧ ∃ k, readCount arg = some k ∧ l = .run k)) ∧
  ∀ arg : List Char, readWithOperand ['r', 'u', 'n'] arg = (readCount arg).map .run

/-- The lines of 30_encoding.md R69: the assembler accepts exactly the frequencies that have a field and
gives that field, never a rounded one; every line of an operation assembles to one word, which decodes
back to that operation; and a `.word` line is the word as written. -/
def Obligations.AssemblerNeverRounds : Prop :=
  (∀ (v : Rat) (F : BitVec 48), fieldOfFreq v = some F ↔ freqOfField F = v) ∧
  (∀ (v : Rat) (ws : List Word), asmWords (.setfreq v) = some ws ↔
    ∃ F, freqOfField F = v ∧ ws = [encode (.setFrequency F)]) ∧
  (∀ v : Wave, asmWords (.setwaveName v) = asmWords (.setwaveCode (waveCode v))) ∧
  (∃ w, asmWords .tick = some [w] ∧ decode w = .ok (.tick false)) ∧
  (∃ w, asmWords .tickRst = some [w] ∧ decode w = .ok (.tick true)) ∧
  (∀ v : Wave, ∃ w, asmWords (.setwaveName v) = some [w] ∧ decode w = .ok (.setWaveform (waveCode v))) ∧
  (∀ k : BitVec 3, ∃ w, asmWords (.setwaveCode k) = some [w] ∧ decode w = .ok (.setWaveform k)) ∧
  (∀ (v : Rat) (F : BitVec 48), freqOfField F = v →
    ∃ w, asmWords (.setfreq v) = some [w] ∧ decode w = .ok (.setFrequency F)) ∧
  (∃ w, asmWords .rstassert = some [w] ∧ decode w = .ok .resetAssert) ∧
  (∃ w, asmWords .rstrelease = some [w] ∧ decode w = .ok .resetRelease) ∧
  ∀ w : Word, asmWords (.word w) = some [w]
end

