-- ==== Sys2Proof/Laws/Decode.lean ====
section
/-! SUPPORT. The fields of a word that is built from its fields. -/

namespace Sys2Proof

/-- The value of a word built from its fields. -/
theorem mkWord_toNat (op : BitVec 4) (payload : BitVec 48) :
    (mkWord op payload).toNat = op.toNat * 2 ^ 60 + payload.toNat := by
  have h1 := op.isLt
  have h2 := payload.isLt
  have h0 : (0 : BitVec 12).toNat = 0 := rfl
  simp only [mkWord, BitVec.toNat_append, h0]
  rw [← Nat.shiftLeft_add_eq_or_of_lt (by omega), ← Nat.shiftLeft_add_eq_or_of_lt (by omega)]
  simp only [Nat.shiftLeft_eq]
  omega

@[simp] theorem opField_mkWord (op : BitVec 4) (payload : BitVec 48) :
    opField (mkWord op payload) = op := by
  apply BitVec.eq_of_toNat_eq
  have h1 := op.isLt
  have h2 := payload.isLt
  simp only [opField, BitVec.extractLsb'_toNat, mkWord_toNat, Nat.shiftRight_eq_div_pow]
  omega

@[simp] theorem resField_mkWord (op : BitVec 4) (payload : BitVec 48) :
    resField (mkWord op payload) = 0 := by
  apply BitVec.eq_of_toNat_eq
  have h2 := payload.isLt
  have h0 : (0 : BitVec 12).toNat = 0 := rfl
  simp only [resField, BitVec.extractLsb'_toNat, mkWord_toNat, Nat.shiftRight_eq_div_pow, h0]
  omega

@[simp] theorem payloadField_mkWord (op : BitVec 4) (payload : BitVec 48) :
    payloadField (mkWord op payload) = payload := by
  apply BitVec.eq_of_toNat_eq
  have h2 := payload.isLt
  simp only [payloadField, BitVec.extractLsb'_toNat, mkWord_toNat, Nat.shiftRight_eq_div_pow]
  omega

/-- A word's fields as parts of its value (30_encoding.md R60). -/
theorem fields_toNat (w : Word) :
    (opField w).toNat = w.toNat / 2 ^ 60 ∧ (resField w).toNat = w.toNat / 2 ^ 48 % 2 ^ 12 ∧
    (payloadField w).toNat = w.toNat % 2 ^ 48 := by
  have h := w.isLt
  simp only [opField, resField, payloadField, BitVec.extractLsb'_toNat, Nat.shiftRight_eq_div_pow]
  exact ⟨by omega, trivial, by omega⟩

/-- A byte of a word as a part of its value (30_encoding.md R71). -/
theorem wordByte_toNat (w : Word) (k : Nat) : (wordByte w k).toNat = w.toNat / 2 ^ (8 * k) % 256 := by
  simp only [wordByte, BitVec.extractLsb'_toNat, Nat.shiftRight_eq_div_pow]

/-- The value of a word built from its bytes (30_encoding.md R71). -/
theorem wordOfBytes_toNat (b0 b1 b2 b3 b4 b5 b6 b7 : Byte) :
    (wordOfBytes b0 b1 b2 b3 b4 b5 b6 b7).toNat =
      b0.toNat + 2 ^ 8 * b1.toNat + 2 ^ 16 * b2.toNat + 2 ^ 24 * b3.toNat + 2 ^ 32 * b4.toNat +
      2 ^ 40 * b5.toNat + 2 ^ 48 * b6.toNat + 2 ^ 56 * b7.toNat := by
  have h (m n : Nat) (x : BitVec m) (y : BitVec n) :
      (x ++ y).toNat = x.toNat * 2 ^ n + y.toNat := by
    rw [BitVec.toNat_append, ← Nat.shiftLeft_add_eq_or_of_lt y.isLt, Nat.shiftLeft_eq]
  simp only [wordOfBytes, h]
  ring

/-- A word is built back from its bytes (30_encoding.md R71). -/
theorem wordOfBytes_wordByte (w : Word) :
    wordOfBytes (wordByte w 0) (wordByte w 1) (wordByte w 2) (wordByte w 3) (wordByte w 4)
      (wordByte w 5) (wordByte w 6) (wordByte w 7) = w := by
  apply BitVec.eq_of_toNat_eq
  have hw := w.isLt
  simp only [wordOfBytes_toNat, wordByte_toNat]
  omega

/-- The decoder as arithmetic on the word's value (30_encoding.md R67). -/
theorem decode_eq_arith (w : Word) : decode w =
    (if w.toNat / 2 ^ 48 % 2 ^ 12 ≠ 0 then .error .reservedBits
    else if w.toNat / 2 ^ 60 = 1 then
      if 2 ≤ w.toNat % 2 ^ 48 then .error .payloadBits else .ok (.tick (decide (w.toNat % 2 = 1)))
    else if w.toNat / 2 ^ 60 = 2 then
      if 8 ≤ w.toNat % 2 ^ 48 then .error .payloadBits
      else .ok (.setWaveform (BitVec.ofNat 3 w.toNat))
    else if w.toNat / 2 ^ 60 = 3 then .ok (.setFrequency (BitVec.ofNat 48 w.toNat))
    else if w.toNat / 2 ^ 60 = 4 then
      if w.toNat % 2 ^ 48 ≠ 0 then .error .payloadBits else .ok .resetAssert
    else if w.toNat / 2 ^ 60 = 5 then
      if w.toNat % 2 ^ 48 ≠ 0 then .error .payloadBits else .ok .resetRelease
    else .error .illegalOp) := by
  obtain ⟨h1, h2, h3⟩ := fields_toNat w
  have op (k : BitVec 4) : opField w = k ↔ w.toNat / 2 ^ 60 = k.toNat := by
    rw [← BitVec.toNat_inj, h1]
  have res : resField w ≠ 0 ↔ w.toNat / 2 ^ 48 % 2 ^ 12 ≠ 0 := by
    rw [Ne, ← BitVec.toNat_inj, h2]
    rfl
  have pl : payloadField w ≠ 0 ↔ w.toNat % 2 ^ 48 ≠ 0 := by
    rw [Ne, ← BitVec.toNat_inj, h3]
    rfl
  have plHigh (b n : Nat) : ((payloadField w).extractLsb' b n).toNat
      = w.toNat % 2 ^ 48 / 2 ^ b % 2 ^ n := by
    rw [BitVec.extractLsb'_toNat, h3, Nat.shiftRight_eq_div_pow]
  have pl1 : (payloadField w).extractLsb' 1 47 ≠ 0 ↔ 2 ≤ w.toNat % 2 ^ 48 := by
    rw [Ne, ← BitVec.toNat_inj, plHigh, show (0 : BitVec 47).toNat = 0 from rfl]
    omega
  have pl3 : (payloadField w).extractLsb' 3 45 ≠ 0 ↔ 8 ≤ w.toNat % 2 ^ 48 := by
    rw [Ne, ← BitVec.toNat_inj, plHigh, show (0 : BitVec 45).toNat = 0 from rfl]
    omega
  have r : (payloadField w).getLsbD 0 = decide (w.toNat % 2 = 1) := by
    rw [BitVec.getLsbD, h3, Nat.testBit_zero, Nat.mod_mod_of_dvd _ (by decide)]
  have sel : (payloadField w).extractLsb' 0 3 = BitVec.ofNat 3 w.toNat := by
    apply BitVec.eq_of_toNat_eq
    rw [plHigh, BitVec.toNat_ofNat]
    omega
  have F : payloadField w = BitVec.ofNat 48 w.toNat := by
    apply BitVec.eq_of_toNat_eq
    rw [h3, BitVec.toNat_ofNat]
  unfold decode
  simp only [op, res, pl, pl1, pl3, r, sel]
  rw [F]
  rfl

/-- The word of an operation as a number (30_encoding.md R60). -/
theorem encode_toNat (i : Instr) :
    (encode i).toNat = i.opcode.toNat * 2 ^ 60 + i.payload.toNat := mkWord_toNat _ _

/-- The payload of each operation as a number (30_encoding.md R62 to R65). -/
theorem payload_toNat (i : Instr) : i.payload.toNat = match i with
    | .tick r => r.toNat
    | .setWaveform sel => sel.toNat
    | .setFrequency F => F.toNat
    | .resetAssert => 0
    | .resetRelease => 0 := by
  cases i with
  | tick r => cases r <;> rfl
  | setWaveform sel =>
    have h := sel.isLt
    simp only [Instr.payload, BitVec.toNat_setWidth]
    omega
  | setFrequency F => rfl
  | resetAssert => rfl
  | resetRelease => rfl

end Sys2Proof
end

