-- ==== Sys2Proof/Laws/State.lean ====
section
/-! SUPPORT. One lemma per field for every update of the state, so that no proof unfolds one. -/

namespace Sys2Proof.Machine

variable (s : State) (p : Params) (ws : List Word) (nbits w : Nat)

@[simp] theorem assertReset_par : (assertReset s).par = s.par := rfl
@[simp] theorem assertReset_count : (assertReset s).count = 0 := rfl
@[simp] theorem assertReset_out : (assertReset s).out = s.par.outInit := rfl
@[simp] theorem assertReset_wave : (assertReset s).wave = s.wave := rfl
@[simp] theorem assertReset_fout : (assertReset s).fout = s.fout := rfl
@[simp] theorem assertReset_rst : (assertReset s).rst = true := rfl
@[simp] theorem assertReset_pending : (assertReset s).pending = s.pending := rfl
@[simp] theorem assertReset_result : (assertReset s).result = s.result := rfl

@[simp] theorem releaseReset_par : (releaseReset s).par = s.par := rfl
@[simp] theorem releaseReset_count : (releaseReset s).count = s.count := rfl
@[simp] theorem releaseReset_out : (releaseReset s).out = s.out := rfl
@[simp] theorem releaseReset_wave : (releaseReset s).wave = s.wave := rfl
@[simp] theorem releaseReset_fout : (releaseReset s).fout = s.fout := rfl
@[simp] theorem releaseReset_rst : (releaseReset s).rst = false := rfl
@[simp] theorem releaseReset_pending : (releaseReset s).pending = s.pending := rfl
@[simp] theorem releaseReset_result : (releaseReset s).result = s.result := rfl

@[simp] theorem clockEdge_par : (clockEdge s).par = s.par := rfl
@[simp] theorem clockEdge_count :
    (clockEdge s).count = advanceCount s.par s.count (ftu s.par s.fout) := rfl
@[simp] theorem clockEdge_out :
    (clockEdge s).out = selectSample s.par s.wave (addr s.par s.count) s.out := rfl
@[simp] theorem clockEdge_wave : (clockEdge s).wave = s.wave := rfl
@[simp] theorem clockEdge_fout : (clockEdge s).fout = s.fout := rfl
@[simp] theorem clockEdge_rst : (clockEdge s).rst = s.rst := rfl
@[simp] theorem clockEdge_pending : (clockEdge s).pending = s.pending := rfl
@[simp] theorem clockEdge_result : (clockEdge s).result = s.result := rfl

@[simp] theorem enqueue_par : (enqueue ws s).par = s.par := rfl
@[simp] theorem enqueue_count : (enqueue ws s).count = s.count := rfl
@[simp] theorem enqueue_out : (enqueue ws s).out = s.out := rfl
@[simp] theorem enqueue_wave : (enqueue ws s).wave = s.wave := rfl
@[simp] theorem enqueue_fout : (enqueue ws s).fout = s.fout := rfl
@[simp] theorem enqueue_rst : (enqueue ws s).rst = s.rst := rfl
@[simp] theorem enqueue_pending : (enqueue ws s).pending = s.pending ++ ws := rfl
@[simp] theorem enqueue_result : (enqueue ws s).result = s.result := rfl

@[simp] theorem withFetchWord_par : (s.withFetchWord nbits w).par = s.par := rfl
@[simp] theorem withFetchWord_count : (s.withFetchWord nbits w).count = s.count := rfl
@[simp] theorem withFetchWord_out : (s.withFetchWord nbits w).out = s.out := rfl
@[simp] theorem withFetchWord_wave : (s.withFetchWord nbits w).wave = s.wave := rfl
@[simp] theorem withFetchWord_fout : (s.withFetchWord nbits w).fout = s.fout := rfl
@[simp] theorem withFetchWord_rst : (s.withFetchWord nbits w).rst = s.rst := rfl
@[simp] theorem withFetchWord_pending :
    (s.withFetchWord nbits w).pending = tableWord nbits w :: s.pending := rfl
@[simp] theorem withFetchWord_result : (s.withFetchWord nbits w).result = s.result := rfl

@[simp] theorem powerOn_par : (State.powerOn p).par = p := rfl
@[simp] theorem powerOn_count : (State.powerOn p).count = 0 := rfl
@[simp] theorem powerOn_out : (State.powerOn p).out = p.outInit := rfl
@[simp] theorem powerOn_wave : (State.powerOn p).wave = .sine := rfl
@[simp] theorem powerOn_fout : (State.powerOn p).fout = 0 := rfl
@[simp] theorem powerOn_rst : (State.powerOn p).rst = false := rfl
@[simp] theorem powerOn_pending : (State.powerOn p).pending = [] := rfl
@[simp] theorem powerOn_result : (State.powerOn p).result = none := rfl

end Sys2Proof.Machine
end

