-- ==== Sys2Proof/Laws/Ops.lean ====
section
/-! SUPPORT. What each shared operation can do, said once: later proofs cite these and do not unfold it. -/

namespace Sys2Proof.Machine

/-- `complete` answers exactly the state it is given, with the result reported. -/
theorem complete_next_iff {r : OpResult} {s t : State} :
    complete r s = .next t ↔ t = { s with result := some r } := by
  simp [complete, eq_comm]

/-- `raise` answers exactly the state it is given, with the error reported. -/
theorem raise_next_iff {e : OpError} {s t : State} :
    raise e s = .next t ↔ t = { s with result := some (.error e) } := by
  simp [raise, eq_comm]

/-- `applyIllegalWord` reports IllegalOperation and does nothing else. -/
theorem applyIllegalWord_next_iff {s t : State} :
    applyIllegalWord s = .next t ↔ t = { s with result := some (.error .illegalOperation) } :=
  raise_next_iff

/-- What SET_FREQUENCY can do: take the frequency, or report the error and change nothing else. -/
theorem setFrequencyTo_next_iff {f : Rat} {s t : State} :
    setFrequencyTo f s = .next t ↔
      (frequencyAccepted s.par f = true ∧ t = { s with fout := f, result := some .ok }) ∨
      (frequencyAccepted s.par f = false ∧
        t = { s with result := some (.error .frequencyOutOfRange) }) := by
  unfold setFrequencyTo
  cases h : frequencyAccepted s.par f <;> simp [complete_next_iff, raise_next_iff]

/-- What a fetch can give: the first pending word, and the state without it. -/
theorem fetch_eq_some_iff {s t : State} {w : Word} :
    fetch s = some (w, t) ↔ ∃ rest, s.pending = w :: rest ∧ t = { s with pending := rest } := by
  unfold fetch
  cases h : s.pending with
  | nil => simp
  | cons v rest =>
    simp only [Option.some.injEq, Prod.mk.injEq, List.cons.injEq]
    constructor
    · rintro ⟨rfl, rfl⟩
      exact ⟨rest, ⟨rfl, rfl⟩, rfl⟩
    · rintro ⟨_, ⟨rfl, rfl⟩, rfl⟩
      exact ⟨rfl, rfl⟩

/-- A fetch gives nothing exactly where nothing is pending. -/
theorem fetch_eq_none_iff {s : State} : fetch s = none ↔ s.pending = [] := by
  unfold fetch
  cases s.pending <;> simp

/-- The accumulator update stays in range. -/
theorem advanceCount_lt (p : Params) (count inc : Nat) : advanceCount p count inc < 2 ^ p.W :=
  Nat.mod_lt _ (Nat.two_pow_pos _)

/-- The address is an `A`-bit field of every accumulator value. -/
theorem addr_lt (p : Params) (count : Nat) : addr p count < 2 ^ p.A :=
  Nat.mod_lt _ (Nat.two_pow_pos _)

/-- What the sample selector can give: an entry of the selected table, or the old sample. -/
theorem selectSample_cases (p : Params) (wave : Wave) (a out : Nat) :
    (∃ t, waveTable wave = some t ∧ selectSample p wave a out = tableRead p.A p.B t a) ∨
    (waveTable wave = none ∧ selectSample p wave a out = out) := by
  cases wave <;> simp [selectSample, waveTable]

/-- What `frequencyAccepted` says. -/
theorem frequencyAccepted_iff (p : Params) (f : Rat) :
    frequencyAccepted p f = true ↔ (p.policy = .reject → ftwRaw p f < 2 ^ p.W) := by
  have h : 0 < 2 ^ p.W := Nat.two_pow_pos _
  unfold frequencyAccepted
  cases p.policy <;> simp
  omega

/-- A waveform's code names it. -/
@[simp] theorem waveOfCode_waveCode (v : Wave) : waveOfCode (waveCode v) = some v := by
  cases v <;> rfl

end Sys2Proof.Machine
end

