-- ==== Sys2Proof/Laws/PerInstr.lean ====
section
/-! SUPPORT. What holds of every operation as syntax, one lemma per constructor. -/

namespace Sys2Proof.Laws.WordShape

/-- The operation is well formed, and its word has its operation code and payload and a zero reserved
field (30_encoding.md R60 to R65). -/
def Statement (i : Instr) : Prop :=
  i.wf = true ∧ opField (encode i) = i.opcode ∧ resField (encode i) = 0 ∧
    payloadField (encode i) = i.payload

theorem tick (r : Bool) : Statement (.tick r) := by simp [Statement, encode, Instr.wf]
theorem setWaveform (sel : BitVec 3) : Statement (.setWaveform sel) := by
  simp [Statement, encode, Instr.wf]
theorem setFrequency (F : BitVec 48) : Statement (.setFrequency F) := by
  simp [Statement, encode, Instr.wf]
theorem resetAssert : Statement .resetAssert := by simp [Statement, encode, Instr.wf]
theorem resetRelease : Statement .resetRelease := by simp [Statement, encode, Instr.wf]

end Sys2Proof.Laws.WordShape
end

