-- ==== Sys2Proof/Laws/Run.lean ====
section
/-! SUPPORT. Steps and runs of the machine, one step at a time. -/

namespace Sys2Proof.Machine

/-- What a step can do, said once: nothing is pending and the state stays; or the first pending word is
taken and is either an operation, whose meaning runs, or illegal, which is reported. -/
theorem step_next_cases {s t : State} (h : step s = .next t) :
    (s.pending = [] ∧ t = s) ∨
    (∃ w rest i, s.pending = w :: rest ∧ decode w = .ok i ∧
      exec i { s with pending := rest } = .next t) ∨
    (∃ w rest e, s.pending = w :: rest ∧ decode w = .error e ∧
      t = { s with pending := rest, result := some (.error .illegalOperation) }) := by
  unfold step at h
  cases hf : fetch s with
  | none =>
    rw [hf] at h
    have ht : s = t := by simpa [idle] using h
    exact .inl ⟨fetch_eq_none_iff.mp hf, ht.symm⟩
  | some p =>
    obtain ⟨w, s'⟩ := p
    rw [hf] at h
    obtain ⟨rest, hp, rfl⟩ := fetch_eq_some_iff.mp hf
    cases hd : decode w with
    | ok i =>
      simp only [hd] at h
      exact .inr (.inl ⟨w, rest, i, hp, hd, h⟩)
    | error e =>
      simp only [hd] at h
      exact .inr (.inr ⟨w, rest, e, hp, hd, applyIllegalWord_next_iff.mp h⟩)

/-- A run of no step answers the state itself. -/
theorem run_zero (s : State) : Host.Core.run core 0 s = .next s := rfl

/-- A run takes one step and goes on from there. -/
theorem run_succ {s t : State} (k : Nat) (h : step s = .next t) :
    Host.Core.run core (k + 1) s = Host.Core.run core k t := by
  have h' : core.step s = .next t := h
  simp only [Host.Core.run, h']

end Sys2Proof.Machine
end

