-- ==== Sys2Proof/Laws/Wavetable.lean ====
section
/-! SUPPORT. The parts of the table generator, each said once: what the rounding of a quotient is, what
the exact comparison with a cosine answers, and what the bitwise search finds. -/

namespace Sys2Proof.Machine

/-- `divRoundHalfEven` is a nearest integer, and the even one at a tie (00_scope.md R10). -/
theorem divRoundHalfEven_spec (num : Int) {den : Nat} (h : 0 < den) :
    2 * (num - den * divRoundHalfEven num den) ≤ den ∧
    -(den : Int) ≤ 2 * (num - den * divRoundHalfEven num den) ∧
    ((2 * (num - den * divRoundHalfEven num den) = den ∨
      2 * (num - den * divRoundHalfEven num den) = -den) → divRoundHalfEven num den % 2 = 0) := by
  have hd : (0 : Int) < den := by exact_mod_cast h
  have h0 := Int.emod_nonneg num (ne_of_gt hd)
  have h1 := Int.emod_lt_of_pos num hd
  have h2 := Int.emod_add_mul_ediv num den
  have key : ∀ c : Int, num - den * (num / den + c) = num % den - den * c := by
    intro c
    rw [mul_add]
    linarith
  have key0 : num - den * (num / den) = num % den := by linarith
  unfold divRoundHalfEven
  dsimp only
  split_ifs with c1 c2 c3
  · rw [key0]
    refine ⟨by omega, by omega, by omega⟩
  · rw [key]
    refine ⟨by omega, by omega, by omega⟩
  · rw [key0]
    exact ⟨by omega, by omega, fun _ => c3⟩
  · rw [key]
    exact ⟨by omega, by omega, fun _ => by omega⟩

/-- The search finds a value in its range that `good` accepts and whose successor, if in range, it does
not, for a `good` that accepts where it starts and nothing above a value it refuses. -/
theorem searchTop_spec (good : Nat → Bool) (mono : ∀ m n, m ≤ n → good n = true → good m = true) :
    ∀ bits acc, good acc = true →
      acc ≤ searchTop good bits acc ∧ searchTop good bits acc < acc + 2 ^ bits ∧
      good (searchTop good bits acc) = true ∧
      ∀ m, good m = true → m < acc + 2 ^ bits → m ≤ searchTop good bits acc := by
  intro bits
  induction bits with
  | zero =>
    intro acc h
    simp only [searchTop]
    exact ⟨le_refl _, by omega, h, fun m _ hm => by omega⟩
  | succ b ih =>
    intro acc h
    have hp := Nat.pow_succ 2 b
    simp only [searchTop]
    split_ifs with c
    · obtain ⟨h1, h2, h3, h4⟩ := ih _ c
      exact ⟨by omega, by omega, h3, fun m hm hlt => h4 m hm (by omega)⟩
    · obtain ⟨h1, h2, h3, h4⟩ := ih _ h
      refine ⟨h1, by omega, h3, fun m hm hlt => ?_⟩
      by_cases hc : m < acc + 2 ^ b
      · exact h4 m hm hc
      · exact absurd (mono _ _ (not_lt.mp hc) hm) c

/-- Comparing two squares compares two numbers of one sign. -/
theorem compares_of_sq {o : Ordering} {x y : ℝ} (hx : 0 ≤ x) (hy : 0 ≤ y)
    (h : o.Compares (x ^ 2) (y ^ 2)) : o.Compares x y := by
  cases o with
  | lt => exact lt_of_pow_lt_pow_left₀ 2 hy h
  | eq => exact (pow_left_inj₀ hx hy two_ne_zero).mp h
  | gt => exact lt_of_pow_lt_pow_left₀ 2 hx h

/-- The angle of `k` steps of `2^n` to the turn, reduced to less than a turn. -/
theorem cos_angle_mod (k m : ℕ) (hm : 0 < m) :
    Real.cos (2 * Real.pi * k / m) = Real.cos (2 * Real.pi * (k % m : ℕ) / m) := by
  have hm' : (m : ℝ) ≠ 0 := by positivity
  have h : (k : ℝ) = (k % m : ℕ) + m * (k / m : ℕ) := by exact_mod_cast (Nat.mod_add_div k m).symm
  have e : 2 * Real.pi * (k : ℝ) / m = 2 * Real.pi * (k % m : ℕ) / m + (k / m : ℕ) * (2 * Real.pi) := by
    rw [h]
    field_simp
  rw [e, Real.cos_add_nat_mul_two_pi]

/-- The sign of the cosine of a reduced angle, by quarter turns. -/
theorem cos_sign (j m : ℕ) (hm : 0 < m) (hj : j < m) :
    ((4 * j = m ∨ 4 * j = 3 * m) → Real.cos (2 * Real.pi * j / m) = 0) ∧
    ((4 * j < m ∨ 3 * m < 4 * j) → 0 < Real.cos (2 * Real.pi * j / m)) ∧
    ((m < 4 * j ∧ 4 * j < 3 * m) → Real.cos (2 * Real.pi * j / m) < 0) := by
  have hm' : (0 : ℝ) < m := by exact_mod_cast hm
  have hpi := Real.pi_pos
  have hj0 : (0 : ℝ) ≤ j := Nat.cast_nonneg j
  have hj' : (j : ℝ) < m := by exact_mod_cast hj
  set t := 2 * Real.pi * (j : ℝ) / m with ht
  have htm : t * m = 2 * Real.pi * j := by rw [ht]; field_simp
  refine ⟨?_, ?_, ?_⟩
  · rintro (h | h)
    · have h' : 4 * (j : ℝ) = m := by exact_mod_cast h
      have : t = Real.pi / 2 := by
        rw [ht, div_eq_div_iff hm'.ne' two_ne_zero]
        linear_combination Real.pi * h'
      rw [this, Real.cos_pi_div_two]
    · have h' : 4 * (j : ℝ) = 3 * m := by exact_mod_cast h
      have : t = Real.pi + Real.pi / 2 := by
        rw [ht, div_eq_iff hm'.ne']
        linear_combination (Real.pi / 2) * h'
      rw [this, Real.cos_add, Real.cos_pi_div_two, Real.sin_pi]
      ring
  · rintro (h | h)
    · have h' : 4 * (j : ℝ) < m := by exact_mod_cast h
      refine Real.cos_pos_of_mem_Ioo ⟨?_, ?_⟩
      · have : 0 ≤ t := by positivity
        linarith
      · rw [ht, div_lt_div_iff₀ hm' two_pos]
        nlinarith
    · have h' : 3 * (m : ℝ) < 4 * j := by exact_mod_cast h
      rw [← Real.cos_sub_two_pi]
      refine Real.cos_pos_of_mem_Ioo ⟨?_, ?_⟩
      · rw [ht, lt_sub_iff_add_lt, lt_div_iff₀ hm']
        nlinarith
      · have : t < 2 * Real.pi := by rw [ht, div_lt_iff₀ hm']; nlinarith
        linarith
  · rintro ⟨h, h2⟩
    have h' : (m : ℝ) < 4 * j := by exact_mod_cast h
    have h2' : 4 * (j : ℝ) < 3 * m := by exact_mod_cast h2
    refine Real.cos_neg_of_pi_div_two_lt_of_lt ?_ ?_
    · rw [ht, div_lt_div_iff₀ two_pos hm']
      nlinarith
    · rw [ht, div_lt_iff₀ hm']
      nlinarith

/-- `cosCmp` compares the rational with the cosine, exactly. -/
theorem cosCmp_compares (n k : ℕ) : ∀ (p : ℤ) (q : ℕ), 0 < q →
    (cosCmp n k p q).Compares ((p : ℝ) / q) (Real.cos (2 * Real.pi * k / (2 ^ n : ℕ))) := by
  induction n with
  | zero =>
    intro p q hq
    have hq' : (0 : ℝ) < q := by exact_mod_cast hq
    have hc : Real.cos (2 * Real.pi * k / (2 ^ 0 : ℕ)) = 1 := by
      rw [show 2 * Real.pi * (k : ℝ) / ((2 ^ 0 : ℕ) : ℝ) = k * (2 * Real.pi) by norm_num; ring]
      exact Real.cos_nat_mul_two_pi k
    have hcmp : (compare p (q : ℤ)).Compares p (q : ℤ) := (compare_iff _ _).mp rfl
    rw [hc, cosCmp]
    revert hcmp
    cases compare p (q : ℤ) with
    | lt => intro h; exact (div_lt_one hq').mpr (by exact_mod_cast h)
    | eq => intro h; exact (div_eq_one_iff_eq hq'.ne').mpr (by exact_mod_cast h)
    | gt => intro h; exact (one_lt_div hq').mpr (by exact_mod_cast h)
  | succ n ih =>
    intro p q hq
    have hq' : (0 : ℝ) < q := by exact_mod_cast hq
    have hm : 0 < 2 ^ (n + 1) := Nat.two_pow_pos _
    have hsq := ih (2 * p * p - (q : ℤ) * q) (q * q) (Nat.mul_pos hq hq)
    have hdouble : Real.cos (2 * Real.pi * k / (2 ^ n : ℕ)) =
        2 * Real.cos (2 * Real.pi * k / (2 ^ (n + 1) : ℕ)) ^ 2 - 1 := by
      rw [← Real.cos_two_mul]
      congr 1
      push_cast
      rw [pow_succ]
      field_simp
    have hleft : (((2 * p * p - (q : ℤ) * q : ℤ) : ℝ) / ((q * q : ℕ) : ℝ)) = 2 * ((p : ℝ) / q) ^ 2 - 1 := by
      push_cast
      field_simp
    rw [hdouble, hleft, cos_angle_mod _ _ hm] at hsq
    rw [cos_angle_mod _ _ hm]
    obtain ⟨hz, hpos, hneg⟩ := cos_sign _ _ hm (Nat.mod_lt k hm)
    set c := Real.cos (2 * Real.pi * ((k % 2 ^ (n + 1) : ℕ) : ℝ) / ((2 ^ (n + 1) : ℕ) : ℝ)) with hcdef
    have hsq' : (cosCmp n k (2 * p * p - (q : ℤ) * q) (q * q)).Compares (((p : ℝ) / q) ^ 2) (c ^ 2) := by
      revert hsq
      cases cosCmp n k (2 * p * p - (q : ℤ) * q) (q * q) <;> simp only [Ordering.Compares] <;>
        intro h <;> linarith
    rw [cosCmp]
    split_ifs with c1 c2 c3 c4
    · rw [hz c1]
      have hcmp : (compare p 0).Compares p 0 := (compare_iff _ _).mp rfl
      revert hcmp
      cases compare p 0 with
      | lt => intro h; exact div_neg_of_neg_of_pos (by exact_mod_cast h) hq'
      | eq => intro h; rw [show p = 0 from h]; simp [Ordering.Compares]
      | gt => intro h; exact div_pos (by exact_mod_cast h) hq'
    · exact lt_trans (div_neg_of_neg_of_pos (by exact_mod_cast c3) hq') (hpos c2)
    · have hp : (0 : ℝ) ≤ p := by exact_mod_cast (not_lt.mp c3)
      exact compares_of_sq (div_nonneg hp hq'.le) (hpos c2).le hsq'
    · have hp : (0 : ℝ) ≤ p := by exact_mod_cast c4
      exact lt_of_lt_of_le (hneg (by omega)) (div_nonneg hp hq'.le)
    · have hp : (p : ℝ) < 0 := by exact_mod_cast (not_le.mp c4)
      have hn := hneg (by omega)
      have h := compares_of_sq (x := -((p : ℝ) / q)) (y := -c)
        (neg_nonneg.mpr (div_neg_of_neg_of_pos hp hq').le) (neg_nonneg.mpr hn.le)
        (by rw [neg_sq, neg_sq]; exact hsq')
      revert h
      cases cosCmp n k (2 * p * p - (q : ℤ) * q) (q * q) <;>
        simp only [Ordering.Compares, Ordering.swap] <;> intro h <;> linarith

/-- `sineHalfCmp` compares `m - 1/2` with SINE's exact value of 40_wavetable.md R82. -/
theorem sineHalfCmp_compares (A B x m : ℕ) (hB : 1 ≤ B) :
    (sineHalfCmp A B x m).Compares ((m : ℝ) - 1 / 2)
      (((2 : ℝ) ^ B - 1) * (1 / 2) * (Real.sin (2 * Real.pi * x / 2 ^ A) + 1)) := by
  have hamp : 0 < 2 ^ B - 1 := by
    have : 2 ^ 1 ≤ 2 ^ B := Nat.pow_le_pow_right (by norm_num) hB
    omega
  have h := cosCmp_compares (A + 2) (4 * x + 3 * 2 ^ A)
    (2 * (m : ℤ) - 1 - ((2 ^ B - 1 : ℕ) : ℤ)) (2 ^ B - 1) hamp
  have hc : Real.cos (2 * Real.pi * ((4 * x + 3 * 2 ^ A : ℕ) : ℝ) / (2 ^ (A + 2) : ℕ)) =
      Real.sin (2 * Real.pi * x / 2 ^ A) := by
    rw [← Real.cos_sub_pi_div_two, ← Real.cos_add_two_pi (_ - _)]
    congr 1
    push_cast
    rw [pow_add]
    field_simp
    ring
  rw [hc] at h
  have hq : (0 : ℝ) < ((2 ^ B - 1 : ℕ) : ℝ) := by exact_mod_cast hamp
  have hq2 : ((2 ^ B - 1 : ℕ) : ℝ) = 2 ^ B - 1 := by
    rw [Nat.cast_sub Nat.one_le_two_pow]
    simp
  unfold sineHalfCmp sinCmp
  push_cast [] at h
  revert h
  rw [← hq2]
  set a := ((2 ^ B - 1 : ℕ) : ℝ)
  have ha2 : 0 < a / 2 := by positivity
  rw [show (2 * (m : ℝ) - 1 - a) / a = (((m : ℝ) - 1 / 2) - a / 2) / (a / 2) by field_simp]
  rw [show a * (1 / 2) * (Real.sin (2 * Real.pi * x / 2 ^ A) + 1) =
    Real.sin (2 * Real.pi * x / 2 ^ A) * (a / 2) + a / 2 by ring]
  generalize Real.sin (2 * Real.pi * x / 2 ^ A) = y
  cases cosCmp (A + 2) (4 * x + 3 * 2 ^ A) (2 * (m : ℤ) - 1 - ((2 ^ B - 1 : ℕ) : ℤ)) (2 ^ B - 1) <;>
    simp only [Ordering.Compares]
  · rw [div_lt_iff₀ ha2]
    intro h
    linarith
  · rw [div_eq_iff ha2.ne']
    intro h
    linarith
  · rw [gt_iff_lt, gt_iff_lt, lt_div_iff₀ ha2]
    intro h
    linarith

end Sys2Proof.Machine
end

