-- ==== Sys2Proof/Tests/Slice0.lean ====
section
/-! SUPPORT. The model's own tests. Every expected value is taken from the spec: 95_test_vectors.md (the
vector's id or section is named), or a worked example or encoding of the rule named. -/

namespace Sys2Proof.Tests

open Sys2Proof.Machine

/-- A state at the defaults, written as the vectors of 95_test_vectors.md write it. -/
def mk (count out : Nat) (wave : Wave) (fout : Rat) (rst : Bool) : State :=
  { State.reset with count, out, wave, fout, rst }

/-- What a step leaves: the five registers and the outcome. -/
structure After where
  count : Nat
  out : Nat
  wave : Wave
  fout : Rat
  rst : Bool
  result : Option OpResult
deriving DecidableEq, Repr

/-- What a step leaves, or nothing where it stops. -/
def after (o : Host.Outcome State Fault Refusal) : Option After :=
  match o with
  | .next t => some ⟨t.count, t.out, t.wave, t.fout, t.rst, t.result⟩
  | _ => none

/-- One step on one issued word. -/
def apply (w : Nat) (s : State) : Option After := after (step (s.withFetchWord 64 w))

/-! ## Decoding: words written out from 30_encoding.md R60 to R65 -/

theorem test_decode_tick0 :
    decodeTableWord 64 0b0001000000000000000000000000000000000000000000000000000000000000
      = some (.tick false) := by decide
theorem test_decode_tick1 :
    decodeTableWord 64 0b0001000000000000000000000000000000000000000000000000000000000001
      = some (.tick true) := by decide
theorem test_decode_setWaveform :
    decodeTableWord 64 0b0010000000000000000000000000000000000000000000000000000000000101
      = some (.setWaveform 5) := by decide
/-- `setfreq 440` is `0x3000000001B80000` (30_encoding.md R64). -/
theorem test_decode_setFrequency :
    decodeTableWord 64 0b0011000000000000000000000000000000000001101110000000000000000000
      = some (.setFrequency 0x1B80000) := by decide
theorem test_decode_resetAssert :
    decodeTableWord 64 0b0100000000000000000000000000000000000000000000000000000000000000
      = some .resetAssert := by decide
theorem test_decode_resetRelease :
    decodeTableWord 64 0b0101000000000000000000000000000000000000000000000000000000000000
      = some .resetRelease := by decide
/-- The illegal words of 95_test_vectors.md section 2.7. -/
theorem test_decode_illegal :
    (decode 0 = .error .illegalOp ∧ decode 0x6000000000000000 = .error .illegalOp ∧
      decode 0xF000000000000000 = .error .illegalOp) ∧
    (decode 0x1000800000000000 = .error .payloadBits ∧
      decode 0x2000000000000010 = .error .payloadBits ∧
      decode 0x4000000000000001 = .error .payloadBits ∧
      decode 0x5000000000000100 = .error .payloadBits) ∧
    (decode 0x1001000000000000 = .error .reservedBits ∧
      decode 0x1800000000000000 = .error .reservedBits ∧
      decode 0x3001000000000000 = .error .reservedBits ∧
      decode 0xFFFFFFFFFFFFFFFF = .error .reservedBits) := by decide
/-- The byte order of 30_encoding.md R71: `00 00 B8 01 00 00 00 30`. -/
theorem test_bytes :
    wordsOfBytes [0x00, 0x00, 0xB8, 0x01, 0x00, 0x00, 0x00, 0x30] = .ok [0x3000000001B80000] := by
  decide
theorem test_bytes_truncated : decodeBytes [0x00, 0x10] = .error .truncated := by decide

/-! ## Well-formedness: one ill-formed term for each check (95_test_vectors.md section 2.8) -/

theorem test_legal_defaults : Params.defaults.legal := by decide
theorem test_illegal_W : ¬ (Params.legal { Params.defaults with W := 12 }) := by decide
theorem test_illegal_B : ¬ (Params.legal { Params.defaults with B := 0 }) := by decide
theorem test_illegal_FS : ¬ (Params.legal { Params.defaults with FS := 0 }) := by decide
theorem test_illegal_outInit : ¬ (Params.legal { Params.defaults with outInit := 4096 }) := by decide
theorem test_wf_reserved_code : (Instr.setWaveform 7).wf = true := by decide

/-! ## The tables (95_test_vectors.md section 2.1.1) -/

theorem test_sine :
    [0, 1, 100, 341, 1000, 1024, 2047, 2049, 2560, 2731, 3072, 4095].map (sineEntry 12 12)
      = [2048, 2051, 2360, 3070, 4094, 4095, 2051, 2044, 600, 274, 0, 2044] := by decide +kernel
theorem test_square : [0, 2047, 2048, 4095].map (squareEntry 12 12) = [4095, 4095, 0, 0] := by
  decide
theorem test_triangle :
    [0, 1, 100, 1023, 1024, 1025, 2049, 3071, 3072, 3073].map (triangleEntry 12 12)
      = [2048, 2046, 1848, 2, 0, 2, 2050, 4094, 4095, 4094] := by decide +kernel
theorem test_sawtooth :
    [0, 1, 100, 2047, 2048, 2049, 4095].map (sawtoothEntry 12 12)
      = [2048, 2048, 2147, 4094, 0, 1, 2047] := by decide +kernel
/-- The unclamped entry that 90_conflicts.md C4 names. -/
theorem test_triangle_raw : triangleRaw 12 12 3072 = 4096 := by decide
/-- Another configuration (95_test_vectors.md section 2.1.2: A = 3, B = 3). -/
theorem test_small_tables :
    (List.range 8).map (tableRead 3 3 .sine) = [4, 6, 7, 6, 4, 1, 0, 1] ∧
    (List.range 8).map (tableRead 3 3 .triangle) = [4, 2, 0, 2, 4, 6, 7, 6] ∧
    (List.range 8).map (tableRead 3 3 .sawtooth) = [4, 4, 5, 6, 0, 1, 2, 3] := by decide +kernel
/-- One-entry tables (95_test_vectors.md section 2.8: A = 0, B = 12). -/
theorem test_one_entry_tables :
    tableRead 0 12 .sine 0 = 2048 ∧ tableRead 0 12 .square 0 = 4095 ∧
    tableRead 0 12 .triangle 0 = 0 ∧ tableRead 0 12 .sawtooth 0 = 2048 := by decide +kernel

/-! ## The tuning unit (95_test_vectors.md section 2.2) -/

theorem test_ftwRaw :
    ftwRaw Params.defaults 440 = 153 ∧ ftwRaw Params.defaults (freqOfField 0x2DC6BFFFFFF) = 16777215 ∧
    ftwRaw Params.defaults (freqOfField 0xFFFFFFFFFFFF) = 1501199875 := by decide
theorem test_ftu_policies :
    ftu { Params.defaults with policy := .wrap } (freqOfField 0xFFFFFFFFFFFF) = 8027651 ∧
    ftu { Params.defaults with policy := .clamp } 48000000 = 16777215 := by decide

/-! ## TICK (95_test_vectors.md section 2.4) -/

/-- T4: the accumulator wraps. -/
theorem test_tick_wraps :
    apply 0x1000000000000000 (mk 16777063 2051 .sine 440 false)
      = some ⟨0, 2044, .sine, 440, false, some (.sample 2044)⟩ := by decide +kernel
/-- T14: the first TICK after a held reset. -/
theorem test_tick_clears_rst :
    apply 0x1000000000000000 (mk 123456 777 .sine 1000 true)
      = some ⟨123805, 2142, .sine, 1000, false, some (.sample 2142)⟩ := by decide +kernel
/-- T11 and T16: PWM holds `out`, reset loads it. -/
theorem test_tick_pwm :
    apply 0x1000000000000000 (mk 123456 777 .pwm 1000 false)
      = some ⟨123805, 777, .pwm, 1000, false, some (.sample 777)⟩ ∧
    apply 0x1000000000000001 (mk 123456 777 .pwm 1000 false)
      = some ⟨0, 0, .pwm, 1000, true, some (.sample 0)⟩ := by decide +kernel
/-- T17: `OUT_INIT = 1234`. -/
theorem test_tick_reset_outInit :
    apply 0x1000000000000001 { mk 123456 777 .sine 1000 false with
        par := { Params.defaults with outInit := 1234 } }
      = some ⟨0, 1234, .sine, 1000, true, some (.sample 1234)⟩ := by decide +kernel

/-! ## SET_FREQUENCY (95_test_vectors.md section 2.3) -/

/-- F1 and F2. -/
theorem test_setFrequency :
    apply 0x3000000003700000 (mk 4590 2051 .sine 440 false)
      = some ⟨4590, 2051, .sine, 880, false, some .ok⟩ ∧
    apply 0x300002DC6C000000 (mk 4590 2051 .sine 440 false)
      = some ⟨4590, 2051, .sine, 440, false, some (.error .frequencyOutOfRange)⟩ := by decide +kernel
/-- F3: accepted under `wrap`. -/
theorem test_setFrequency_wrap :
    apply 0x300002DC6C000000 { mk 4590 2051 .sine 440 false with
        par := { Params.defaults with policy := .wrap } }
      = some ⟨4590, 2051, .sine, 48000000, false, some .ok⟩ := by decide +kernel

/-! ## SET_WAVEFORM, RESET_ASSERT, RESET_RELEASE and illegal words (sections 2.5, 2.6, 2.4) -/

/-- W3 and W7. -/
theorem test_setWaveform :
    apply 0x2000000000000002 (mk 8388608 4095 .square 24000000 false)
      = some ⟨8388608, 4095, .triangle, 24000000, false, some .ok⟩ ∧
    apply 0x2000000000000006 (mk 8388608 4095 .square 24000000 false)
      = some ⟨8388608, 4095, .square, 24000000, false, some (.error .invalidWaveform)⟩ := by
  decide +kernel
/-- X1. -/
theorem test_resetAssert :
    apply 0x4000000000000000 (mk 4590 2051 .sine 440 false)
      = some ⟨0, 0, .sine, 440, true, some .ok⟩ := by decide +kernel
/-- X3 and X4. -/
theorem test_resetRelease :
    apply 0x5000000000000000 (mk 0 0 .sine 440 true) = some ⟨0, 0, .sine, 440, false, some .ok⟩ ∧
    apply 0x5000000000000000 (mk 4590 2051 .sine 440 false)
      = some ⟨4590, 2051, .sine, 440, false, some .ok⟩ := by decide +kernel
/-- T18. -/
theorem test_illegal_word :
    apply 0x1000000000000002 (mk 123456 777 .sine 1000 false)
      = some ⟨123456, 777, .sine, 1000, false, some (.error .illegalOperation)⟩ := by decide +kernel
/-- The numeric outcome codes of 60_exceptions.md R170. -/
theorem test_outcome_codes :
    [OpResult.ok, .sample 7, .error .frequencyOutOfRange, .error .invalidWaveform,
      .error .illegalOperation].map outcomeCode = [0, 0, 1, 2, 3] := by decide

/-! ## Elaboration (95_test_vectors.md section 2.8) -/

theorem test_elaborate_small :
    elaborate { N := 8, B := 3, W := 4, FS := 8, outInit := 0, policy := some .reject }
      = .next (State.powerOn { A := 3, B := 3, W := 4, FS := 8, outInit := 0, policy := .reject }) := by
  rfl
theorem test_elaborate_invalid :
    elaborate { N := 4096, B := 12, W := 12, FS := 48000000, outInit := 0, policy := some .reject }
      = .fault .invalidConfig := by rfl

/-! ## The assembler (30_encoding.md R69, R70) -/

theorem test_asm_setfreq :
    assembleLine ['s', 'e', 't', 'f', 'r', 'e', 'q', ' ', '2', '9', '2', '9', '.', '6', '8', '7', '5',
      ' ', ';', ' ', 'x'] = some [0x300000000B71B000] := by decide +kernel
theorem test_asm_setwave :
    assembleLine ['s', 'e', 't', 'w', 'a', 'v', 'e', ' ', 'P', 'W', 'M'] = some [0x2000000000000004] := by
  decide +kernel
theorem test_asm_refuses_inexact :
    assembleLine ['s', 'e', 't', 'f', 'r', 'e', 'q', ' ', '0', '.', '1'] = none := by decide +kernel

/-! ## Witnesses: for each statement with hypotheses, concrete values that meet them together -/

/-- A running state: X1 of 95_test_vectors.md. -/
abbrev running : State := mk 4590 2051 .sine 440 false
/-- A held reset: X2 of 95_test_vectors.md. -/
abbrev held : State := mk 0 0 .sine 440 true

theorem witness_good_running : Good running :=
  ⟨by decide, by decide, by decide, by decide, fun _ => by decide, by decide⟩
theorem witness_good_held : Good held :=
  ⟨by decide, by decide, by decide, by decide, fun _ => by decide, fun _ => by decide⟩

theorem witness_IllegalWordsAreExactlyTheRejected :
    ((running.withFetchWord 64 0x2000000000000008).pending = [0x2000000000000008] ∧
      IllegalWord 0x2000000000000008) ∧ 6 ≤ (6 : BitVec 3).toNat := by decide
theorem witness_IllegalWords_boundaries :
    (IllegalWord 0 ∧ IllegalWord 0x6000000000000000 ∧ IllegalWord 0x1001000000000000 ∧
      IllegalWord 0x1000000000000002 ∧ IllegalWord 0x4000000000000001 ∧
      IllegalWord 0x5000000000000001) ∧
    ¬ IllegalWord 0x2000000000000007 ∧ ¬ IllegalWord 0x3000FFFFFFFFFFFF :=
  ⟨⟨by decide, by decide, by decide, by decide, by decide, by decide⟩, by decide, by decide⟩
theorem witness_DecoderReadsEveryWordAndEncodeInverts :
    (∀ w ∈ [0x1000000000000001, 0x2000000000000007, 0x3000FFFFFFFFFFFF, 0x4000000000000000,
        0x5000000000000000], w / 2 ^ 48 % 2 ^ 12 = 0) ∧
    (0x1000000000000001 / 2 ^ 60 = 1 ∧ 0x1000000000000001 % 2 ^ 48 < 2) ∧
    (0x2000000000000007 / 2 ^ 60 = 2 ∧ 0x2000000000000007 % 2 ^ 48 < 8) ∧
    0x3000FFFFFFFFFFFF / 2 ^ 60 = 3 ∧
    (0x4000000000000000 / 2 ^ 60 = 4 ∧ 0x4000000000000000 % 2 ^ 48 = 0) ∧
    (0x5000000000000000 / 2 ^ 60 = 5 ∧ 0x5000000000000000 % 2 ^ 48 = 0) ∧
    decode 0x1000000000000001 = .ok (.tick true) := by decide
theorem witness_EveryOperationRoundTrips : (Instr.setFrequency 0xFFFFFFFFFFFF).wf = true := by decide
theorem witness_OperandsFixTheWord :
    6 ≤ (7 : BitVec 3).toNat ∧ decode 0x2000000000000007 = .ok (.setWaveform 7) := by decide
theorem witness_FrequencyFieldIsExact : ((2 ^ 48 - 1 : ℕ) : ℚ) / 2 ^ 16 < 2 ^ 32 := by norm_num
theorem witness_StreamBytesCarryTheWords : 7 < 8 := by decide
theorem witness_StepRunsTheDecodedOperation :
    (running.withFetchWord 64 0x4000000000000000).pending = 0x4000000000000000 :: [] ∧
    decode 0x4000000000000000 = .ok .resetAssert := by decide
theorem witness_IdleStepKeepsTheState : running.pending = [] := by decide
theorem witness_OutcomesFollowTheirTable :
    running.par.legal ∧ (∃ t, exec (.setFrequency 0x2DC6C000000) running = .next t) ∧
    ∃ t, step (running.withFetchWord 64 0) = .next t := ⟨by decide, ⟨_, rfl⟩, ⟨_, rfl⟩⟩
theorem witness_FailedOperationChangesNothing :
    (∃ t, exec (.setWaveform 6) running = .next t ∧ t.result = some (.error .invalidWaveform)) ∧
    ∃ t, step (running.withFetchWord 64 0) = .next t ∧
      t.result = some (.error .illegalOperation) := ⟨⟨_, rfl, rfl⟩, ⟨_, rfl, rfl⟩⟩
theorem witness_OperationsWriteOnlyTheirRegisters :
    (∃ t, exec (.tick true) running = .next t) ∧ (∃ t, exec (.setWaveform 5) running = .next t) ∧
    (∃ t, exec (.setFrequency 0) running = .next t) ∧ (∃ t, exec .resetAssert running = .next t) ∧
    ∃ t, exec .resetRelease running = .next t :=
  ⟨⟨_, rfl⟩, ⟨_, rfl⟩, ⟨_, rfl⟩, ⟨_, rfl⟩, ⟨_, rfl⟩⟩
theorem witness_HostFieldsNeverReachTheRegisters :
    ∃ t, exec (.tick false) running = .next t := ⟨_, rfl⟩
theorem witness_TickFollowsItsRule :
    (running.par.A ≤ running.par.W ∧ (mk 16777215 0 .noise 440 false).count < 2 ^ 24) ∧
    (mk 0 0 .sine 440 false).par = Params.defaults ∧ (mk 0 0 .sine 440 false).count = 0 ∧
    (mk 0 0 .sine 440 false).wave = .sine ∧ (mk 0 0 .sine 440 false).fout = 440 := by decide
theorem witness_AddressIsTheTopBits :
    (Params.defaults.A ≤ Params.defaults.W ∧ 16777215 < 2 ^ Params.defaults.W) ∧
    (mk 4096 0 .sine 440 false).count / 2 ^ (24 - 12) = 8191 / 2 ^ (24 - 12) ∧
    ∃ t, exec (.tick false) (mk 4096 0 .sine 440 false) = .next t :=
  ⟨by decide, by decide, _, rfl⟩
theorem witness_ResetAssertFollowsItsRule :
    (Good held ∧ held.rst = true) ∧ running.count = 4590 ∧ running.out = 2051 :=
  ⟨⟨witness_good_held, rfl⟩, rfl, rfl⟩
theorem witness_ResetReleaseFollowsItsRule :
    running.rst = false ∧ (held.count = 0 ∧ held.out = held.par.outInit ∧
      Instr.setWaveform 1 ≠ .tick false ∧ ∃ t, exec (.setWaveform 1) held = .next t) ∧
    running.wave = .sine := ⟨rfl, ⟨rfl, rfl, by decide, _, rfl⟩, rfl⟩
theorem witness_SamplesFollowThePhase :
    held.par.A ≤ held.par.W ∧ held.count = 0 ∧ waveTable held.wave = some .sine ∧
    (enqueue [encode (.tick false), encode (.tick false)] held).pending =
      List.replicate (1 + 1) (encode (.tick false)) ++ [] := by decide
theorem witness_SlowPhaseSkipsNoAddress :
    running.par.A ≤ running.par.W ∧ running.count < 2 ^ running.par.W ∧
    ftu running.par running.fout < 2 ^ (running.par.W - running.par.A) := by decide
theorem witness_AccumulatorWraps :
    ftu running.par running.fout = 153 ∧ 153 < 2 ^ running.par.W ∧
    (mk 16777063 0 .sine 440 false).count + 153 = 2 ^ running.par.W ∧
    ((mk 16777215 0 .sine 440 false).count < 2 ^ running.par.W ∧
      2 ^ running.par.W ≤ (mk 16777215 0 .sine 440 false).count + 153) := by decide
theorem witness_PhasePeriodIsExact :
    running.count < 2 ^ running.par.W ∧ 0 < ftu running.par running.fout ∧
    (enqueue [encode (.tick false)] running).pending =
      List.replicate 1 (encode (.tick false)) := by decide
theorem witness_PhaseIgnoresTheWaveform :
    (enqueue [encode (.tick false)] running).pending = List.replicate 1 (encode (.tick false)) := by
  decide
theorem witness_FirstTickAfterResetStartsAtPhaseZero :
    (Good held ∧ held.rst = true ∧ waveTable held.wave = some .sine) ∧
    waveTable Wave.pwm = none := ⟨⟨witness_good_held, rfl, rfl⟩, rfl⟩
theorem witness_SampleLagsTheFrequencyByOneTick :
    (∃ t, exec (.tick false) running = .next t) ∧ waveTable running.wave = some .sine :=
  ⟨⟨_, rfl⟩, rfl⟩
theorem witness_SetWaveformFollowsItsRule :
    (5 : BitVec 3).toNat ≤ 5 ∧ 5 < (6 : BitVec 3).toNat ∧ ((5 : BitVec 3) = 4 ∨ (5 : BitVec 3) = 5) ∧
    (mk 8388608 4095 .sine 24000000 false).par = Params.defaults ∧
    (mk 8388608 4095 .sine 24000000 false).count = 8388608 ∧
    (mk 8388608 4095 .sine 24000000 false).wave = .sine := by decide
theorem witness_OnlySetWaveformChangesTheWaveform :
    ∃ t, step (running.withFetchWord 64 0x2000000000000001) = .next t ∧
      t.wave ≠ (running.withFetchWord 64 0x2000000000000001).wave := ⟨_, rfl, by decide⟩
theorem witness_SetFrequencyFollowsItsRule :
    (running.par.policy = .reject ∧ 2 ^ running.par.W - 1 < ftwRaw running.par 48000000) ∧
    ¬ (running.par.policy = .reject ∧ 2 ^ running.par.W - 1 < ftwRaw running.par 47999999) ∧
    ¬ (running.par.policy = .reject ∧ 2 ^ running.par.W - 1 <
      ftwRaw running.par (((0x2DC6BFFFFFF#48).toNat : ℚ) / 2 ^ 16)) ∧
    (running.par.legal ∧ (0 : Rat) ≤ 48000000) ∧
    (running.par.FS * (2 ^ 24 - 1) / 2 ^ 24 ≤ 47999999 ∧ (47999999 : Rat) < running.par.FS) ∧
    running.par = Params.defaults := by decide +kernel
theorem witness_RawTuningWordIsTheExactFloor :
    Params.defaults.legal ∧ (0 : Rat) ≤ 440 := by decide
theorem witness_TuningWordFollowsThePolicy :
    Good running ∧ Params.defaults.policy = .reject := ⟨witness_good_running, rfl⟩
theorem witness_TuningWordInRangeExactlyBelowFS :
    Params.defaults.legal ∧ (0 : Rat) ≤ 48000000 ∧ Params.defaults.policy = .reject := by decide
theorem witness_TuningIsMonotoneAndNearlyLinear :
    Params.defaults.legal ∧ (0 : Rat) ≤ 440 ∧ (440 : Rat) ≤ 880 ∧
    Params.defaults.policy ≠ .wrap := by decide
theorem witness_ActualFrequencyIsWithinOneStep :
    Good running ∧ ftwRaw running.par running.fout < 2 ^ running.par.W :=
  ⟨witness_good_running, by decide⟩
theorem witness_ZeroTuningFreezesThePhase :
    Good { running with fout := 1, pending := [encode (.tick false)] } ∧
    ({ running with fout := 1 } : State).fout * 2 ^ running.par.W < running.par.FS ∧
    waveTable running.wave = some .sine ∧
    [encode (.tick false)] = List.replicate (0 + 1) (encode (.tick false)) :=
  ⟨⟨by decide, by decide, by decide, by decide, fun _ => by decide, by decide⟩,
    by decide +kernel, rfl, rfl⟩
theorem witness_NoHalfRateLimit :
    (running.par.legal ∧ running.par.policy = .reject ∧ (0 : Rat) ≤ 47999999 ∧
      (47999999 : Rat) < running.par.FS) ∧
    Good { running with fout := 24000000 } ∧
    ({ running with fout := 24000000 } : State).fout = running.par.FS / 2 :=
  ⟨by decide, ⟨by decide, by decide, by decide, by decide, fun _ => by decide, by decide⟩,
    by decide +kernel⟩
theorem witness_SineTableIsTheRoundedSine : 1 ≤ 12 ∧ 4095 < 2 ^ 12 := by decide
theorem witness_SquareTableFollowsItsRule :
    (2047 < 2 ^ 12 ∧ ((2047 : ℕ) : ℚ) < 2 ^ 12 / 2) ∧ 2048 < 2 ^ 12 ∧
    (2 : ℚ) ^ 12 / 2 ≤ ((2048 : ℕ) : ℚ) := by norm_num
theorem witness_TriangleTableFollowsItsRule : 3072 < 2 ^ 12 := by decide
theorem witness_SawtoothTableFollowsItsRule :
    (1 ≤ 12 ∧ 4095 < 2 ^ 12) ∧ ((2047 : ℕ) : ℝ) < 2 ^ 12 / 2 ∧
    (2 : ℝ) ^ 12 / 2 ≤ ((2048 : ℕ) : ℝ) := by norm_num
theorem witness_TablesStayInRange : 1 ≤ 1 ∧ 0 < 2 ^ 0 := by decide
theorem witness_SineTiesOnlyAtTheZeros :
    1 ≤ 12 ∧ 2048 < 2 ^ 12 ∧ sineHalfCmp 12 12 2048 2048 = .eq := by decide +kernel
theorem witness_SineTableIsSymmetric : 2 ≤ 12 ∧ 1 ≤ 12 ∧ 0 < 2047 ∧ 2047 < 2 ^ (12 - 1) := by
  decide
theorem witness_ClosedFormsAtTheDefaults :
    (∀ x ∈ [0, 1024, 3072], x < 4096) ∧
    ((0 : ℕ) : ℤ) = |(((1024 + 1024) % 4096 : ℕ) : ℤ) - 2048| ∧
    ((2048 : ℕ) : ℤ) = |(((3072 + 1024) % 4096 : ℕ) : ℤ) - 2048| ∧
    ((1024 : ℕ) : ℤ) = |(((0 + 1024) % 4096 : ℕ) : ℤ) - 2048| := by decide
theorem witness_ElaborationFollowsItsRules :
    requestParams Params.defaults.request = some Params.defaults ∧ Params.defaults.legal ∧
    elaborate { N := 8, B := 3, W := 4, FS := 8, outInit := 0, policy := some .reject } ≠
      .fault .invalidConfig :=
  ⟨by decide, by decide, by rw [test_elaborate_small]; exact fun h => nomatch h⟩
theorem witness_PowerOnAndResetValues :
    (∃ t, exec .resetAssert running = .next t) ∧ (∃ t, exec (.tick true) running = .next t) ∧
    ∀ F, Instr.setFrequency F ∉ [Instr.tick false, .resetRelease] :=
  ⟨⟨_, rfl⟩, ⟨_, rfl⟩, by simp⟩
theorem witness_PowerOnIsGood : Params.defaults.legal := by decide
theorem witness_EveryStepKeepsTheStateGood :
    Good running ∧ ∃ t, step running = .next t := ⟨witness_good_running, _, rfl⟩
theorem witness_InstancesDoNotTouchEachOther :
    (∃ sys, stepInstance 0 [running, held] = .next sys) ∧ 1 ≠ 0 ∧
    [running, held][1]? = some held := ⟨⟨_, rfl⟩, by decide, rfl⟩
theorem witness_PseudoInstructionsExpand :
    1 ≤ 1 ∧ readWithOperand ['r', 'u', 'n'] ['3'] = some (.run 3) ∧
    readWithOperand ['t', 'i', 'c', 'k'] ['r', 's', 't'] = some .tickRst ∧
    readWithOperand ['s', 'e', 't', 'w', 'a', 'v', 'e'] ['7'] = some (.setwaveCode 7) ∧
    readWithOperand ['s', 'e', 't', 'f', 'r', 'e', 'q'] ['0'] = some (.setfreq 0) ∧
    (∃ w, readWithOperand ['.', 'w', 'o', 'r', 'd'] ('0' :: 'x' :: List.replicate 16 'f')
      = some (.word w)) :=
  ⟨by decide, by decide, by decide, by decide, by decide +kernel, _, rfl⟩
/-- The largest field and the first multiples of `2^-16` that have none: `2^32`, and below zero. -/
theorem witness_AssemblerNeverRounds :
    freqOfField 0xFFFFFFFFFFFF = 281474976710655 / 65536 ∧
    fieldOfFreq (281474976710655 / 65536) = some 0xFFFFFFFFFFFF ∧
    fieldOfFreq 4294967296 = none ∧ fieldOfFreq (-1 / 65536) = none ∧
    fieldOfFreq (1 / 131072) = none := by decide +kernel

end Sys2Proof.Tests
end

section
/-! SUPPORT. Each operation's word decodes back to it, so a step on it is the operation's meaning. -/

namespace Sys2Proof

/-- TICK's payload bit is its reset level, and the bits above it are zero (30_encoding.md R62). -/
theorem tick_payload_fields (r : Bool) :
    (Instr.tick r).payload.extractLsb' 1 47 = 0 ∧ (Instr.tick r).payload.getLsbD 0 = r := by
  cases r <;> decide

/-- SET_WAVEFORM's low payload bits are its code, and the bits above are zero (30_encoding.md R63). -/
theorem setWaveform_payload_fields (sel : BitVec 3) :
    (Instr.setWaveform sel).payload.extractLsb' 3 45 = 0 ∧
      (Instr.setWaveform sel).payload.extractLsb' 0 3 = sel := by
  revert sel
  decide

/-- The decoder reads an operation's word as that operation (30_encoding.md R67). -/
@[simp] theorem decode_encode (i : Instr) : decode (encode i) = .ok i := by
  cases i with
  | tick r =>
    obtain ⟨hzero, hr⟩ := tick_payload_fields r
    simpa [decode, encode, Instr.opcode, hzero] using hr
  | setWaveform sel =>
    obtain ⟨hzero, hsel⟩ := setWaveform_payload_fields sel
    simp [decode, encode, Instr.opcode, hzero, hsel]
  | setFrequency F => simp [decode, encode, Instr.opcode, Instr.payload]
  | resetAssert => simp [decode, encode, Instr.opcode, Instr.payload]
  | resetRelease => simp [decode, encode, Instr.opcode, Instr.payload]

end Sys2Proof
end

section
/-! SUPPORT. What each operation can do, said once per arm of `exec`, and what a run of operations keeps. -/

namespace Sys2Proof.Machine

/-- TICK with reset asserted (42_phase_accumulator.md R125). -/
theorem exec_tick_asserted_next_iff {s t : State} :
    exec (.tick true) s = .next t ↔
      t = { assertReset s with result := some (.sample s.par.outInit) } :=
  complete_next_iff

/-- TICK with reset released (42_phase_accumulator.md R120). -/
theorem exec_tick_released_next_iff {s t : State} :
    exec (.tick false) s = .next t ↔
      t = { clockEdge (releaseReset s) with
            result := some (.sample (clockEdge (releaseReset s)).out) } :=
  complete_next_iff

/-- RESET_ASSERT (42_phase_accumulator.md R126). -/
theorem exec_resetAssert_next_iff {s t : State} :
    exec .resetAssert s = .next t ↔ t = { assertReset s with result := some .ok } :=
  complete_next_iff

/-- RESET_RELEASE (42_phase_accumulator.md R127). -/
theorem exec_resetRelease_next_iff {s t : State} :
    exec .resetRelease s = .next t ↔ t = { releaseReset s with result := some .ok } :=
  complete_next_iff

/-- SET_WAVEFORM takes the waveform of its code, or reports InvalidWaveform and changes nothing else
(43_waveform_state.md R150, R153). -/
theorem exec_setWaveform_next_iff {sel : BitVec 3} {s t : State} :
    exec (.setWaveform sel) s = .next t ↔
      (∃ v, waveOfCode sel = some v ∧ t = { s with wave := v, result := some .ok }) ∨
      (waveOfCode sel = none ∧ t = { s with result := some (.error .invalidWaveform) }) := by
  change execSetWaveform sel s = .next t ↔ _
  unfold execSetWaveform
  cases h : waveOfCode sel <;> simp [complete_next_iff, raise_next_iff]

/-- SET_FREQUENCY takes the frequency of its field, or reports FrequencyOutOfRange and changes nothing
else (41_frequency_tuning.md R103). -/
theorem exec_setFrequency_next_iff {F : BitVec 48} {s t : State} :
    exec (.setFrequency F) s = .next t ↔
      (frequencyAccepted s.par (freqOfField F) = true ∧
        t = { s with fout := freqOfField F, result := some .ok }) ∨
      (frequencyAccepted s.par (freqOfField F) = false ∧
        t = { s with result := some (.error .frequencyOutOfRange) }) :=
  setFrequencyTo_next_iff

/-- Both forms of the reset leave the state that `assertReset` describes, with some report. -/
theorem exec_assertion_next {i : Instr} {s t : State} (hi : i = .resetAssert ∨ i = .tick true)
    (h : exec i s = .next t) : ∃ r, t = { assertReset s with result := some r } := by
  rcases hi with rfl | rfl
  · exact ⟨_, exec_resetAssert_next_iff.mp h⟩
  · exact ⟨_, exec_tick_asserted_next_iff.mp h⟩

/-- Every operation ends in a next state (60_exceptions.md R176; log 5). -/
theorem exec_total (i : Instr) (s : State) : ∃ t, exec i s = .next t := by
  cases i with
  | tick r => exact ⟨_, rfl⟩
  | setWaveform sel =>
    cases h : waveOfCode sel with
    | none => exact ⟨_, exec_setWaveform_next_iff.mpr (.inr ⟨h, rfl⟩)⟩
    | some v => exact ⟨_, exec_setWaveform_next_iff.mpr (.inl ⟨v, h, rfl⟩)⟩
  | setFrequency F =>
    cases h : frequencyAccepted s.par (freqOfField F) with
    | false => exact ⟨_, exec_setFrequency_next_iff.mpr (.inr ⟨h, rfl⟩)⟩
    | true => exact ⟨_, exec_setFrequency_next_iff.mpr (.inl ⟨h, rfl⟩)⟩
  | resetAssert => exact ⟨_, rfl⟩
  | resetRelease => exact ⟨_, rfl⟩

/-- No operation writes the parameters or the queue (00_scope.md R6; log 3). -/
theorem exec_keeps_par_pending {i : Instr} {s t : State} (h : exec i s = .next t) :
    t.par = s.par ∧ t.pending = s.pending := by
  cases i with
  | tick r =>
    cases r with
    | false => obtain rfl := exec_tick_released_next_iff.mp h; simp
    | true => obtain rfl := exec_tick_asserted_next_iff.mp h; simp
  | setWaveform sel =>
    obtain ⟨v, -, rfl⟩ | ⟨-, rfl⟩ := exec_setWaveform_next_iff.mp h <;> simp
  | setFrequency F =>
    obtain ⟨-, rfl⟩ | ⟨-, rfl⟩ := exec_setFrequency_next_iff.mp h <;> simp
  | resetAssert => obtain rfl := exec_resetAssert_next_iff.mp h; simp
  | resetRelease => obtain rfl := exec_resetRelease_next_iff.mp h; simp

/-- A step on an operation's word is the operation's meaning on the rest of the queue. -/
theorem step_encode {s : State} {i : Instr} {rest : List Word} (h : s.pending = encode i :: rest) :
    step s = exec i { s with pending := rest } := by
  simp [step, fetch, h]

/-- A run over the words of a list of operations applies all of them, and what every one of them keeps
holds at the end. -/
theorem run_encode_keeps (P : State → Prop) (rest : List Word) (ops : List Instr)
    (hkeep : ∀ i ∈ ops, ∀ (s t : State) (ws : List Word),
      P s → exec i { s with pending := ws } = .next t → P t) :
    ∀ s : State, s.pending = ops.map encode ++ rest → P s →
      ∃ t : State, Host.Core.run core ops.length s = .next t ∧ P t ∧ t.pending = rest := by
  induction ops with
  | nil => exact fun s hs hP => ⟨s, run_zero s, hP, hs⟩
  | cons i ops ih =>
    intro s hs hP
    obtain ⟨u, hu⟩ := exec_total i { s with pending := ops.map encode ++ rest }
    have hrun := run_succ ops.length ((step_encode hs).trans hu)
    obtain ⟨-, hpending⟩ := exec_keeps_par_pending hu
    obtain ⟨t, ht, hend⟩ := ih (fun j hj => hkeep j (List.mem_cons_of_mem i hj)) u hpending
      (hkeep i List.mem_cons_self s u _ hP hu)
    exact ⟨t, hrun.trans ht, hend⟩

end Sys2Proof.Machine
end

section
/-! SUPPORT and PROOF. The state after power-on and after a reset (10_state.md R32). -/

namespace Sys2Proof.Machine

/-- The frequency 0 has the tuning word 0 under every policy (41_frequency_tuning.md R100, R101). -/
@[simp] theorem ftu_zero (p : Params) : ftu p 0 = 0 := by
  have hraw : ftwRaw p 0 = 0 := by simp [ftwRaw]
  unfold ftu
  cases p.policy <;> simp [hraw]

/-- The accumulator is at 0 and its tuning word is 0, as at power-on. -/
structure PhaseAtRest (s : State) : Prop where
  count_zero : s.count = 0
  inc_zero : ftu s.par s.fout = 0

/-- The power-on state has its phase at rest, whatever is issued (10_state.md R32). -/
theorem powerOn_phaseAtRest (p : Params) (ws : List Word) :
    PhaseAtRest { State.powerOn p with pending := ws } :=
  ⟨rfl, ftu_zero p⟩

/-- Only SET_FREQUENCY can end the rest: no other operation writes `fout`, and each leaves `count`,
clears it, or adds the tuning word 0 to it. -/
theorem exec_keeps_phaseAtRest {i : Instr} {s t : State} (hi : ∀ F, i ≠ .setFrequency F)
    (hs : PhaseAtRest s) (h : exec i s = .next t) : PhaseAtRest t := by
  obtain ⟨hcount, hinc⟩ := hs
  cases i with
  | tick r =>
    cases r with
    | false =>
      obtain rfl := exec_tick_released_next_iff.mp h
      exact ⟨by simp [hcount, hinc, advanceCount], hinc⟩
    | true =>
      obtain rfl := exec_tick_asserted_next_iff.mp h
      exact ⟨rfl, hinc⟩
  | setWaveform sel =>
    obtain ⟨v, -, rfl⟩ | ⟨-, rfl⟩ := exec_setWaveform_next_iff.mp h
    · exact ⟨hcount, hinc⟩
    · exact ⟨hcount, hinc⟩
  | setFrequency F => exact absurd rfl (hi F)
  | resetAssert =>
    obtain rfl := exec_resetAssert_next_iff.mp h
    exact ⟨rfl, hinc⟩
  | resetRelease =>
    obtain rfl := exec_resetRelease_next_iff.mp h
    exact ⟨hcount, hinc⟩

/-- From power-on the accumulator stays at 0 through every run of operations without SET_FREQUENCY. -/
theorem run_powerOn_count_zero (ops : List Instr) (p : Params)
    (hops : ∀ F, .setFrequency F ∉ ops) :
    ∃ t : State, Host.Core.run core ops.length
      { State.powerOn p with pending := ops.map encode } = .next t ∧ t.count = 0 := by
  have hkeep : ∀ i ∈ ops, ∀ (s t : State) (ws : List Word),
      PhaseAtRest s → exec i { s with pending := ws } = .next t → PhaseAtRest t :=
    fun i hi s t ws ⟨hcount, hinc⟩ =>
      exec_keeps_phaseAtRest (fun F hF => hops F (hF ▸ hi)) ⟨hcount, hinc⟩
  obtain ⟨t, hrun, hrest, -⟩ := run_encode_keeps PhaseAtRest [] ops hkeep
    { State.powerOn p with pending := ops.map encode } (List.append_nil _).symm
    (powerOn_phaseAtRest p _)
  exact ⟨t, hrun, hrest.count_zero⟩

/-- Settles O46: the power-on values are the definition's, both forms of the reset are `assertReset`
with a report, and the accumulator at rest is an invariant of the operations other than SET_FREQUENCY. -/
theorem powerOnAndResetValues : Obligations.PowerOnAndResetValues := by
  refine ⟨fun p => by simp, fun i s t hi h => ?_, fun p => ftu_zero p, run_powerOn_count_zero⟩
  obtain ⟨r, rfl⟩ := exec_assertion_next hi h
  simp

end Sys2Proof.Machine
end

section
/-! SUPPORT. The decoder in both directions: the words it accepts are the words of the operations, and
every other word is one that 30_encoding.md R66 describes as illegal. -/

namespace Sys2Proof

open Machine

/-- The word of TICK, by its value (30_encoding.md R62). -/
theorem encode_tick_toNat (r : Bool) :
    (encode (.tick r)).toNat = 0x1000000000000000 + r.toNat := by
  simp [encode_toNat, payload_toNat, Instr.opcode]

/-- The word of SET_WAVEFORM, by its value (30_encoding.md R63). -/
theorem encode_setWaveform_toNat (sel : BitVec 3) :
    (encode (.setWaveform sel)).toNat = 0x2000000000000000 + sel.toNat := by
  simp [encode_toNat, payload_toNat, Instr.opcode]

/-- The word of SET_FREQUENCY, by its value (30_encoding.md R64). -/
theorem encode_setFrequency_toNat (F : BitVec 48) :
    (encode (.setFrequency F)).toNat = 0x3000000000000000 + F.toNat := by
  simp [encode_toNat, payload_toNat, Instr.opcode]

/-- The one word of RESET_ASSERT (30_encoding.md R65). -/
theorem encode_resetAssert_toNat : (encode .resetAssert).toNat = 0x4000000000000000 := rfl

/-- The one word of RESET_RELEASE (30_encoding.md R65). -/
theorem encode_resetRelease_toNat : (encode .resetRelease).toNat = 0x5000000000000000 := rfl

/-- A word that decodes to an operation is that operation's word (30_encoding.md R67): on each accepting
branch the reserved field, the operation code and the payload are known, and they fix the word. -/
theorem encode_of_decode {w : Word} {i : Instr} (h : decode w = .ok i) : encode i = w := by
  have hw := w.isLt
  apply BitVec.eq_of_toNat_eq
  rw [decode_eq_arith] at h
  split_ifs at h <;> obtain rfl := Except.ok.inj h
  · rw [encode_tick_toNat, Bool.toNat, Bool.cond_decide]
    split <;> omega
  · rw [encode_setWaveform_toNat, BitVec.toNat_ofNat]
    omega
  · rw [encode_setFrequency_toNat, BitVec.toNat_ofNat]
    omega
  · rw [encode_resetAssert_toNat]
    omega
  · rw [encode_resetRelease_toNat]
    omega

/-- The words that decode to an operation: its own word and no other. -/
theorem decode_eq_ok_iff {w : Word} {i : Instr} : decode w = .ok i ↔ w = encode i :=
  ⟨fun h => (encode_of_decode h).symm, fun h => h ▸ decode_encode i⟩

/-- The words that decode to an operation, by their value. -/
theorem decode_eq_ok_iff_toNat {w : Word} {i : Instr} :
    decode w = .ok i ↔ w.toNat = (encode i).toNat := by
  rw [decode_eq_ok_iff, BitVec.toNat_inj]

/-- No operation's word is illegal (30_encoding.md R66): no clause fits its operation code and payload. -/
theorem not_illegalWord_encode (i : Instr) : ¬ IllegalWord (encode i) := by
  cases i with
  | tick r =>
    have hr := r.toNat_lt
    rw [IllegalWord, encode_tick_toNat]
    omega
  | setWaveform sel =>
    have hsel := sel.isLt
    rw [IllegalWord, encode_setWaveform_toNat]
    omega
  | setFrequency F =>
    have hF := F.isLt
    rw [IllegalWord, encode_setFrequency_toNat]
    omega
  | resetAssert => decide
  | resetRelease => decide

/-- The decoder rejects every illegal word: what it accepts is some operation's word. -/
theorem decode_error_of_illegalWord {w : Word} (h : IllegalWord w) : ∃ e, decode w = .error e := by
  cases hd : decode w with
  | error e => exact ⟨e, rfl⟩
  | ok i => exact absurd (encode_of_decode hd ▸ h) (not_illegalWord_encode i)

/-- The decoder rejects illegal words only: each rejecting branch is a clause of 30_encoding.md R66. -/
theorem illegalWord_of_decode_error {w : Word} {e : DecodeError} (h : decode w = .error e) :
    IllegalWord w := by
  rw [decode_eq_arith] at h
  split_ifs at h with hres hop₁ hpay hop₂ hpay hop₃ hop₄ hpay hop₅ hpay
  · exact .inr (.inr (.inl hres))
  · exact .inr (.inr (.inr (.inl ⟨hop₁, hpay⟩)))
  · exact .inr (.inr (.inr (.inr (.inl ⟨hop₂, hpay⟩))))
  · exact .inr (.inr (.inr (.inr (.inr ⟨.inl hop₄, hpay⟩))))
  · exact .inr (.inr (.inr (.inr (.inr ⟨.inr hop₅, hpay⟩))))
  · have hop : w.toNat / 2 ^ 60 = 0 ∨ 6 ≤ w.toNat / 2 ^ 60 := by omega
    exact hop.imp_right .inl

end Sys2Proof
end

section
/-! PROOF. Illegal words, the words of TICK, SET_WAVEFORM and the resets, and the reserved waveform codes
(30_encoding.md R62, R63, R65, R66). -/

namespace Sys2Proof.Machine

/-- The codes that name no waveform are the reserved ones (10_state.md R23). -/
theorem waveOfCode_eq_none_iff (sel : BitVec 3) : waveOfCode sel = none ↔ 6 ≤ sel.toNat := by
  revert sel
  decide

/-- SET_WAVEFORM of a reserved code reports InvalidWaveform and changes nothing else (30_encoding.md
R63). -/
theorem exec_setWaveform_reserved {sel : BitVec 3} (hsel : 6 ≤ sel.toNat) (s : State) :
    exec (.setWaveform sel) s = .next { s with result := some (.error .invalidWaveform) } :=
  exec_setWaveform_next_iff.mpr (.inr ⟨(waveOfCode_eq_none_iff sel).mpr hsel, rfl⟩)

/-- A step on a word that the decoder rejects takes the word and reports IllegalOperation
(60_exceptions.md R174). -/
theorem step_of_decode_error {s : State} {w : Word} {rest : List Word} {e : DecodeError}
    (hp : s.pending = w :: rest) (hd : decode w = .error e) :
    step s = .next { s with pending := rest, result := some (.error .illegalOperation) } := by
  have hf : fetch s = some (w, { s with pending := rest }) := fetch_eq_some_iff.mpr ⟨rest, hp, rfl⟩
  simp only [step, hf, hd]
  exact applyIllegalWord_next_iff.mpr rfl

/-- Settles O1: the decoder rejects exactly R66's words, and what a step does on a rejected word and
SET_WAVEFORM on a reserved code follows. -/
theorem illegalWordsAreExactlyTheRejected : Obligations.IllegalWordsAreExactlyTheRejected := by
  refine ⟨fun w => ⟨decode_error_of_illegalWord, ?_⟩, fun s w rest hp hw => ?_, fun s sel hsel => ?_⟩
  · rintro ⟨e, he⟩
    exact illegalWord_of_decode_error he
  · obtain ⟨e, he⟩ := decode_error_of_illegalWord hw
    exact step_of_decode_error hp he
  · exact ⟨decode_encode _, exec_setWaveform_reserved hsel s⟩

/-- Settles O4: a word decodes to an operation exactly when its value is the operation code and payload
of that operation. -/
theorem operandsFixTheWord : Obligations.OperandsFixTheWord := by
  refine ⟨by decide, fun w => ⟨fun r => ?_, fun sel => ?_, ?_, ?_, fun s sel hsel _ => ?_⟩⟩
  · rw [decode_eq_ok_iff_toNat, encode_tick_toNat]
  · rw [decode_eq_ok_iff_toNat, encode_setWaveform_toNat]
  · exact decode_eq_ok_iff
  · exact decode_eq_ok_iff
  · exact exec_setWaveform_reserved hsel s

end Sys2Proof.Machine
end

section
/-! PROOF. The UQ32.16 frequency field of SET_FREQUENCY (30_encoding.md R64). -/

namespace Sys2Proof.Machine

/-- The words that decode to SET_FREQUENCY of a field (30_encoding.md R64). -/
theorem decode_eq_setFrequency_iff (w : Word) (F : BitVec 48) :
    decode w = .ok (.setFrequency F) ↔ w.toNat = 0x3000000000000000 + F.toNat := by
  rw [decode_eq_ok_iff_toNat, encode_setFrequency_toNat]

/-- The frequency of a field, as a quotient of rationals. -/
theorem freqOfField_eq_div (F : BitVec 48) : freqOfField F = (F.toNat : ℚ) / 2 ^ 16 := by
  rw [freqOfField, Rat.mkRat_eq_div]
  norm_num

/-- The field of a number of units of `2^-16` Hz: the one with that value. -/
theorem freqOfField_eq_iff (F : BitVec 48) (n : ℕ) :
    freqOfField F = (n : ℚ) / 2 ^ 16 ↔ F.toNat = n := by
  rw [freqOfField_eq_div, div_left_inj' (by norm_num), Nat.cast_inj]

/-- The frequency of a field is at least 0 and below `2^32` by at least one unit. -/
theorem freqOfField_mem_range (F : BitVec 48) :
    0 ≤ freqOfField F ∧ freqOfField F ≤ (2 ^ 48 - 1) / 2 ^ 16 := by
  have hF : (F.toNat : ℚ) + 1 ≤ 2 ^ 48 := by exact_mod_cast F.isLt
  rw [freqOfField_eq_div]
  exact ⟨by positivity, by gcongr; linarith⟩

/-- Every multiple of `2^-16` below `2^32` has exactly one field (30_encoding.md R64). -/
theorem existsUnique_freqOfField {n : ℕ} (hn : (n : ℚ) / 2 ^ 16 < 2 ^ 32) :
    ∃! F : BitVec 48, freqOfField F = (n : ℚ) / 2 ^ 16 := by
  have hlt : n < 2 ^ 48 := by
    rw [div_lt_iff₀ (by norm_num)] at hn
    exact_mod_cast hn.trans_eq (by norm_num : (2 : ℚ) ^ 32 * 2 ^ 16 = (2 ^ 48 : ℕ))
  have hfield : (BitVec.ofNat 48 n).toNat = n := by rw [BitVec.toNat_ofNat, Nat.mod_eq_of_lt hlt]
  simp only [freqOfField_eq_iff]
  exact ⟨BitVec.ofNat 48 n, hfield, fun F hF => BitVec.eq_of_toNat_eq (hF.trans hfield.symm)⟩

/-- Settles O5: the field is exact as a quotient and unique by its value; the examples are single fields. -/
theorem frequencyFieldIsExact : Obligations.FrequencyFieldIsExact := by
  refine ⟨decode_eq_setFrequency_iff, fun F => ⟨freqOfField_eq_div F, freqOfField_mem_range F⟩,
    fun n hn => existsUnique_freqOfField hn, ⟨?_, ?_⟩, ⟨?_, ?_⟩, ⟨?_, ?_⟩⟩
  · exact ((freqOfField_eq_iff _ 0x000001B80000).mpr rfl).trans (by norm_num)
  · exact (decode_eq_setFrequency_iff _ _).mpr (by decide)
  · exact ((freqOfField_eq_iff _ 0x016E36000000).mpr rfl).trans (by norm_num)
  · exact (decode_eq_setFrequency_iff _ _).mpr (by decide)
  · exact ((freqOfField_eq_iff _ 0x00000B71B000).mpr rfl).trans (by norm_num)
  · exact (decode_eq_setFrequency_iff _ _).mpr (by decide)

end Sys2Proof.Machine
end

section
/-! PROOF. Operation words carried in bytes (30_encoding.md R71). -/

namespace Sys2Proof

/-- The bytes of a word in order, the byte at place `k` being byte `k` (30_encoding.md R71). -/
theorem bytesOfWord_eq_map (w : Word) : bytesOfWord w = (List.range 8).map (wordByte w) := rfl

/-- The bytes of a word in front of a stream are read as that word and then the stream's words. -/
theorem wordsOfBytes_bytesOfWord_append (w : Word) {rest : List Byte} {ws : List Word}
    (h : wordsOfBytes rest = .ok ws) : wordsOfBytes (bytesOfWord w ++ rest) = .ok (w :: ws) := by
  simp only [bytesOfWord, List.cons_append, List.nil_append, wordsOfBytes, h, wordOfBytes_wordByte]

/-- A stream of words is read back from its bytes (30_encoding.md R71). -/
theorem wordsOfBytes_bytesOfWords (ws : List Word) : wordsOfBytes (bytesOfWords ws) = .ok ws := by
  induction ws with
  | nil => rfl
  | cons w ws ih => exact wordsOfBytes_bytesOfWord_append w ih

/-- Settles O6: the bytes of a word are its eight bytes in order, and eight bytes make the word again. -/
theorem streamBytesCarryTheWords : Obligations.StreamBytesCarryTheWords := by
  refine ⟨fun w k hk => ?_, fun w => rfl, wordsOfBytes_bytesOfWords, by decide⟩
  rw [bytesOfWord_eq_map, List.getElem?_map, List.getElem?_range hk]
  exact congrArg some (wordByte_toNat w k)

end Sys2Proof
end

section
/-! PROOF. The pseudo-instructions and the mnemonics that the assembler accepts (30_encoding.md R70). -/

namespace Sys2Proof.Machine

/-- `run K` is `K` copies of `tick`, for `K >= 1` (30_encoding.md R70). -/
theorem asmWords_run {k : ℕ} (hk : 1 ≤ k) :
    asmWords (.run k) = some (List.replicate k (encode (.tick false))) :=
  if_neg (Nat.one_le_iff_ne_zero.mp hk)

/-- The mnemonics accepted with no operand, and the line of each. -/
theorem readPlain_eq_some_iff (m : List Char) (l : AsmLine) : readPlain m = some l ↔
    (m = ['t', 'i', 'c', 'k'] ∧ l = .tick) ∨
    (m = ['r', 's', 't', 'a', 's', 's', 'e', 'r', 't'] ∧ l = .rstassert) ∨
    (m = ['r', 's', 't', 'r', 'e', 'l', 'e', 'a', 's', 'e'] ∧ l = .rstrelease) ∨
    (m = ['r', 'e', 's', 'e', 't'] ∧ l = .reset) ∨
    (m = ['h', 'o', 'l', 'd'] ∧ l = .hold) ∨
    (m = ['r', 'e', 'l', 'e', 'a', 's', 'e'] ∧ l = .release) := by
  constructor
  · intro h
    unfold readPlain at h
    split_ifs at h with hm hm hm hm hm hm <;> obtain rfl := Option.some.inj h <;> simp [hm]
  · rintro (⟨rfl, rfl⟩ | ⟨rfl, rfl⟩ | ⟨rfl, rfl⟩ | ⟨rfl, rfl⟩ | ⟨rfl, rfl⟩ | ⟨rfl, rfl⟩) <;> rfl

/-- The operand of `setwave` gives a `setwave` line, by name or by code (30_encoding.md R69). -/
theorem readSetwave_eq_some {cs : List Char} {l : AsmLine} (h : readSetwave cs = some l) :
    (∃ v, l = .setwaveName v) ∨ ∃ k, l = .setwaveCode k := by
  unfold readSetwave at h
  split at h
  next v _ => exact .inl ⟨v, (Option.some.inj h).symm⟩
  next =>
    split at h
    next k _ =>
      split_ifs at h
      exact .inr ⟨_, (Option.some.inj h).symm⟩
    next => exact absurd h (by simp)

/-- The mnemonics accepted with one operand, and the line that each gives. -/
theorem readWithOperand_eq_some {m arg : List Char} {l : AsmLine}
    (h : readWithOperand m arg = some l) :
    (m = ['t', 'i', 'c', 'k'] ∧ arg = ['r', 's', 't'] ∧ l = .tickRst) ∨
    (m = ['s', 'e', 't', 'w', 'a', 'v', 'e'] ∧
      ((∃ v, l = .setwaveName v) ∨ ∃ k, l = .setwaveCode k)) ∨
    (m = ['s', 'e', 't', 'f', 'r', 'e', 'q'] ∧ ∃ v, readDecimal arg = some v ∧ l = .setfreq v) ∨
    (m = ['.', 'w', 'o', 'r', 'd'] ∧ ∃ w, readWord arg = some w ∧ l = .word w) ∨
    (m = ['r', 'u', 'n'] ∧ ∃ k, readCount arg = some k ∧ l = .run k) := by
  unfold readWithOperand at h
  split_ifs at h with htick harg hwave hfreq hword hrun
  · exact .inl ⟨htick, harg, (Option.some.inj h).symm⟩
  · exact .inr (.inl ⟨hwave, readSetwave_eq_some h⟩)
  · obtain ⟨v, hv, rfl⟩ := Option.map_eq_some_iff.mp h
    exact .inr (.inr (.inl ⟨hfreq, v, hv, rfl⟩))
  · obtain ⟨w, hw, rfl⟩ := Option.map_eq_some_iff.mp h
    exact .inr (.inr (.inr (.inl ⟨hword, w, hw, rfl⟩)))
  · obtain ⟨k, hk, rfl⟩ := Option.map_eq_some_iff.mp h
    exact .inr (.inr (.inr (.inr ⟨hrun, k, hk, rfl⟩)))

/-- Settles O51: the expansions are `asmWords`' own equations, and each reader accepts the mnemonics of
R69 and R70 and no other. -/
theorem pseudoInstructionsExpand : Obligations.PseudoInstructionsExpand :=
  ⟨⟨rfl, rfl, rfl, rfl, fun _ hk => ⟨_, rfl, asmWords_run hk⟩⟩, readPlain_eq_some_iff,
    fun _ _ _ => readWithOperand_eq_some, fun _ => rfl⟩

end Sys2Proof.Machine
end

section
/-! SUPPORT. What rounding half to even decides: the integer is unique, it stays within integer bounds of
the value, and it is what the model's quotient and the model's search compute (00_scope.md R10). -/

namespace Sys2Proof.Machine

/-- The full-scale sample as an integer, without the truncated subtraction. -/
theorem natCast_amp {R : Type*} [Ring R] (B : ℕ) : ((2 ^ B - 1 : ℕ) : R) = 2 ^ B - 1 := by
  rw [Nat.cast_sub Nat.one_le_two_pow]
  simp

/-- A value has one rounding: two different ones would be neighbours, both at a tie and so both even. -/
theorem IsRoundHalfEven.unique {v : ℝ} {m n : ℤ} (hm : IsRoundHalfEven v m)
    (hn : IsRoundHalfEven v n) : m = n := by
  wlog h : m ≤ n generalizing m n
  · exact (this hn hm (le_of_not_ge h)).symm
  obtain ⟨hmle, hmeven⟩ := hm
  obtain ⟨hnle, hneven⟩ := hn
  have hmv := (abs_le.mp hmle).2
  have hnv := (abs_le.mp hnle).1
  rcases h.eq_or_lt with h | h
  · exact h
  have hstep : (m : ℝ) + 1 ≤ n := by exact_mod_cast h
  have hm2 : v - m = 1 / 2 := by linarith
  have hn2 : v - n = -(1 / 2) := by linarith
  have hnext : n = m + 1 := by exact_mod_cast (by linarith : (n : ℝ) = m + 1)
  obtain ⟨a, ha⟩ := hmeven (by rw [hm2]; norm_num)
  obtain ⟨b, hb⟩ := hneven (by rw [hn2]; norm_num)
  omega

/-- The rounding of a value at least an integer is at least that integer. -/
theorem IsRoundHalfEven.intCast_le {v : ℝ} {m k : ℤ} (h : IsRoundHalfEven v m) (hk : (k : ℝ) ≤ v) :
    k ≤ m := by
  have hv := (abs_le.mp h.1).2
  exact Int.lt_add_one_iff.mp (by exact_mod_cast (by linarith : (k : ℝ) < m + 1))

/-- The rounding of a value at most an integer is at most that integer. -/
theorem IsRoundHalfEven.le_intCast {v : ℝ} {m k : ℤ} (h : IsRoundHalfEven v m) (hk : v ≤ (k : ℝ)) :
    m ≤ k := by
  have hv := (abs_le.mp h.1).1
  exact Int.lt_add_one_iff.mp (by exact_mod_cast (by linarith : (m : ℝ) < k + 1))

/-- The rounding of a value in `[0, AMP]` is in `[0, AMP]` (40_wavetable.md R86). -/
theorem IsRoundHalfEven.mem_sample_range {v : ℝ} {m : ℤ} {B : ℕ} (h : IsRoundHalfEven v m)
    (h0 : 0 ≤ v) (hB : v ≤ 2 ^ B - 1) : 0 ≤ m ∧ m ≤ 2 ^ B - 1 :=
  ⟨h.intCast_le (by exact_mod_cast h0), h.le_intCast (by exact_mod_cast hB)⟩

/-- An integer is its own rounding. -/
theorem isRoundHalfEven_intCast (k : ℤ) : IsRoundHalfEven k k := by
  simp [IsRoundHalfEven]

/-- Half of the full-scale sample is a tie: it rounds to `2^(B-1)`, except to 0 for `B = 1`
(40_wavetable.md R82). -/
theorem isRoundHalfEven_half_amp {B : ℕ} (hB : 1 ≤ B) :
    IsRoundHalfEven (((2 : ℝ) ^ B - 1) / 2) (if B = 1 then 0 else 2 ^ (B - 1)) := by
  rcases hB.eq_or_lt with rfl | hB
  · norm_num [IsRoundHalfEven]
  obtain ⟨b, rfl⟩ := Nat.exists_eq_add_of_le' hB
  have hdist : ((2 : ℝ) ^ (b + 2) - 1) / 2 - ((2 ^ (b + 1) : ℤ) : ℝ) = -(1 / 2) := by
    push_cast
    ring
  have heven : Even ((2 : ℤ) ^ (b + 1)) := even_two.pow_of_ne_zero (Nat.succ_ne_zero b)
  rw [if_neg (by omega), show b + 2 - 1 = b + 1 from rfl, IsRoundHalfEven, hdist]
  exact ⟨by norm_num, fun _ => heven⟩

/-- The model's rounded quotient is the rounding of the real quotient. -/
theorem isRoundHalfEven_divRoundHalfEven (num : ℤ) {den : ℕ} (hden : 0 < den) :
    IsRoundHalfEven ((num : ℝ) / den) (divRoundHalfEven num den) := by
  obtain ⟨hle, hge, htie⟩ := divRoundHalfEven_spec num hden
  set m := divRoundHalfEven num den
  have hd : (0 : ℝ) < den := by exact_mod_cast hden
  have hdist : (num : ℝ) / den - m = ((2 * (num - den * m) : ℤ) : ℝ) / den / 2 := by
    push_cast
    field_simp
  have hle' : ((2 * (num - den * m) : ℤ) : ℝ) / den ≤ 1 :=
    (div_le_one hd).mpr (by exact_mod_cast hle)
  have hge' : -1 ≤ ((2 * (num - den * m) : ℤ) : ℝ) / den := by
    rw [le_div_iff₀ hd, neg_one_mul]
    exact_mod_cast hge
  rw [IsRoundHalfEven, hdist]
  refine ⟨abs_le.mpr ⟨by linarith, by linarith⟩, fun h => Int.even_iff.mpr (htie ?_)⟩
  rcases eq_or_eq_neg_of_abs_eq h with h | h
  · have h1 : ((2 * (num - den * m) : ℤ) : ℝ) / den = 1 := by linarith
    exact .inl (by exact_mod_cast (div_eq_one_iff_eq hd.ne').mp h1)
  · have h1 : ((2 * (num - den * m) : ℤ) : ℝ) / den = -1 := by linarith
    rw [div_eq_iff hd.ne', neg_one_mul] at h1
    exact .inr (by exact_mod_cast h1)

/-- An integer is the rounding of what lies about it, if it is even where its lower half-point is hit. -/
theorem isRoundHalfEven_of_half_le {v : ℝ} {m : ℤ} (hle : (m : ℝ) - 1 / 2 ≤ v) (hlt : v < m + 1 / 2)
    (htie : (m : ℝ) - 1 / 2 = v → Even m) : IsRoundHalfEven v m := by
  refine ⟨abs_le.mpr ⟨by linarith, by linarith⟩, fun h => htie ?_⟩
  rcases eq_or_eq_neg_of_abs_eq h with h | h <;> linarith

/-- At the lower half-point of an odd integer the rounding is the even integer below. -/
theorem isRoundHalfEven_sub_one {v : ℝ} {m : ℤ} (hv : (m : ℝ) - 1 / 2 = v) (hodd : Odd m) :
    IsRoundHalfEven v (m - 1) := by
  have hdist : v - ((m - 1 : ℤ) : ℝ) = 1 / 2 := by
    rw [← hv]
    push_cast
    ring
  rw [IsRoundHalfEven, hdist]
  exact ⟨by norm_num, fun _ => hodd.sub_odd odd_one⟩

/-- The floor of a quotient of natural numbers, over the reals. -/
theorem floor_natCast_div_natCast (a n : ℕ) : ⌊(a : ℝ) / n⌋ = ((a / n : ℕ) : ℤ) := by
  rw [Int.floor_div_natCast, Int.floor_natCast, Int.natCast_div]

end Sys2Proof.Machine
end

section
/-! PROOF. SINE (40_wavetable.md R82). -/

namespace Sys2Proof.Machine

/-- The exact value of SINE before rounding (40_wavetable.md R82). -/
noncomputable def sineValue (A B x : ℕ) : ℝ :=
  ((2 : ℝ) ^ B - 1) * (1 / 2) * (Real.sin (2 * Real.pi * x / 2 ^ A) + 1)

/-- SINE's exact value is in `[0, AMP]`. -/
theorem sineValue_mem_range (A B x : ℕ) : 0 ≤ sineValue A B x ∧ sineValue A B x ≤ 2 ^ B - 1 := by
  have hamp : (0 : ℝ) ≤ 2 ^ B - 1 := sub_nonneg.mpr (one_le_pow₀ one_le_two)
  have hlo := Real.neg_one_le_sin (2 * Real.pi * x / 2 ^ A)
  have hhi := Real.sin_le_one (2 * Real.pi * x / 2 ^ A)
  unfold sineValue
  constructor
  · exact mul_nonneg (by linarith) (by linarith)
  · nlinarith only [hamp, hhi]

/-- SINE's exact value depends only on the fraction of the turn. -/
theorem sineValue_mul_two_pow (A n B j : ℕ) :
    sineValue (A + n) B (j * 2 ^ A) = sineValue n B j := by
  have hangle : 2 * Real.pi * ((j * 2 ^ A : ℕ) : ℝ) / 2 ^ (A + n) = 2 * Real.pi * j / 2 ^ n := by
    push_cast
    rw [pow_add]
    field_simp
  rw [sineValue, hangle, sineValue]

/-- At the start of the turn SINE's exact value is half the full scale. -/
theorem sineValue_zero (A B : ℕ) : sineValue A B 0 = (2 ^ B - 1) / 2 := by
  simp [sineValue, div_eq_mul_inv]

/-- At half a turn SINE's exact value is half the full scale. -/
theorem sineValue_half_turn (B : ℕ) : sineValue 1 B 1 = (2 ^ B - 1) / 2 := by
  have hangle : 2 * Real.pi * ((1 : ℕ) : ℝ) / 2 ^ 1 = Real.pi := by
    push_cast
    ring
  rw [sineValue, hangle, Real.sin_pi]
  ring

/-- At a quarter turn SINE's exact value is the full scale. -/
theorem sineValue_quarter_turn (B : ℕ) : sineValue 2 B 1 = 2 ^ B - 1 := by
  have hangle : 2 * Real.pi * ((1 : ℕ) : ℝ) / 2 ^ 2 = Real.pi / 2 := by
    push_cast
    ring
  rw [sineValue, hangle, Real.sin_pi_div_two]
  ring

/-- At three quarters of a turn SINE's exact value is 0. -/
theorem sineValue_three_quarter_turn (B : ℕ) : sineValue 2 B 3 = 0 := by
  have hangle : 2 * Real.pi * ((3 : ℕ) : ℝ) / 2 ^ 2 = Real.pi / 2 + Real.pi := by
    push_cast
    ring
  rw [sineValue, hangle, Real.sin_add_pi, Real.sin_pi_div_two]
  ring

/-- What the search of `sineEntry` finds. -/
def sineTop (A B x : ℕ) : ℕ := searchTop (fun m => sineHalfCmp A B x m != .gt) B 0

/-- SINE's entry is what the search finds, and one less at a tie with an odd one. -/
theorem sineEntry_eq (A B x : ℕ) : sineEntry A B x =
    if sineHalfCmp A B x (sineTop A B x) = .eq ∧ sineTop A B x % 2 = 1 then (sineTop A B x : ℤ) - 1
    else sineTop A B x := rfl

/-- The search accepts `m` when `m - 1/2` is at most the exact value. -/
theorem sineHalfCmp_accepts_iff {B : ℕ} (hB : 1 ≤ B) (A x m : ℕ) :
    (sineHalfCmp A B x m != .gt) = true ↔ (m : ℝ) - 1 / 2 ≤ sineValue A B x := by
  rw [bne_iff_ne]
  exact (sineHalfCmp_compares A B x m hB).ne_gt

/-- The comparison answers `eq` when `m - 1/2` is the exact value. -/
theorem sineHalfCmp_eq_iff {B : ℕ} (hB : 1 ≤ B) (A x m : ℕ) :
    sineHalfCmp A B x m = .eq ↔ (m : ℝ) - 1 / 2 = sineValue A B x :=
  (sineHalfCmp_compares A B x m hB).eq_eq

/-- The search finds the largest `m < 2^B` with `m - 1/2` at most the exact value. -/
theorem sineTop_spec {B : ℕ} (hB : 1 ≤ B) (A x : ℕ) :
    (sineTop A B x : ℝ) - 1 / 2 ≤ sineValue A B x ∧
    ∀ m : ℕ, (m : ℝ) - 1 / 2 ≤ sineValue A B x → m < 2 ^ B → m ≤ sineTop A B x := by
  have hmono : ∀ m n : ℕ, m ≤ n → (n : ℝ) - 1 / 2 ≤ sineValue A B x →
      (m : ℝ) - 1 / 2 ≤ sineValue A B x := fun m n hmn hn =>
    (sub_le_sub_right (Nat.cast_le.mpr hmn) _).trans hn
  have hzero : ((0 : ℕ) : ℝ) - 1 / 2 ≤ sineValue A B x := by
    have := (sineValue_mem_range A B x).1
    push_cast
    linarith
  simp only [← sineHalfCmp_accepts_iff hB] at hmono hzero ⊢
  obtain ⟨-, -, hgood, hmax⟩ :=
    searchTop_spec (fun m => sineHalfCmp A B x m != .gt) hmono B 0 hzero
  rw [Nat.zero_add] at hmax
  exact ⟨hgood, hmax⟩

/-- The exact value is in the half-open unit interval about what the search finds: above that, either the
search refused the next number or the full scale bounds the exact value. -/
theorem sineTop_bounds {B : ℕ} (hB : 1 ≤ B) (A x : ℕ) :
    (sineTop A B x : ℝ) - 1 / 2 ≤ sineValue A B x ∧ sineValue A B x < sineTop A B x + 1 / 2 := by
  obtain ⟨hle, hmax⟩ := sineTop_spec hB A x
  obtain ⟨-, hvB⟩ := sineValue_mem_range A B x
  refine ⟨hle, ?_⟩
  by_contra hge
  have hnext : ((sineTop A B x + 1 : ℕ) : ℝ) - 1 / 2 ≤ sineValue A B x := by
    push_cast
    linarith
  by_cases hlast : sineTop A B x + 1 < 2 ^ B
  · exact absurd (hmax _ hnext hlast) (by omega)
  · have hlast' : (2 : ℝ) ^ B ≤ sineTop A B x + 1 := by exact_mod_cast not_lt.mp hlast
    linarith

/-- SINE's entry is the rounding of its exact value (40_wavetable.md R82). -/
theorem sineEntry_isRoundHalfEven {B : ℕ} (hB : 1 ≤ B) (A x : ℕ) :
    IsRoundHalfEven (sineValue A B x) (sineEntry A B x) := by
  obtain ⟨hle, hlt⟩ := sineTop_bounds hB A x
  rw [sineEntry_eq]
  split_ifs with htie
  · obtain ⟨heq, hodd⟩ := htie
    exact isRoundHalfEven_sub_one (by exact_mod_cast (sineHalfCmp_eq_iff hB A x _).mp heq)
      (Int.odd_iff.mpr (by exact_mod_cast hodd))
  · refine isRoundHalfEven_of_half_le (by exact_mod_cast hle) (by exact_mod_cast hlt) fun hv => ?_
    have hnot : ¬ sineTop A B x % 2 = 1 := fun hodd =>
      htie ⟨(sineHalfCmp_eq_iff hB A x _).mpr (by exact_mod_cast hv), hodd⟩
    exact Int.even_iff.mpr (by omega)

/-- SINE's entry is known where the rounding of its exact value is. -/
theorem sineEntry_eq_of_isRoundHalfEven {A B x : ℕ} {m : ℤ} (hB : 1 ≤ B)
    (h : IsRoundHalfEven (sineValue A B x) m) : sineEntry A B x = m :=
  (sineEntry_isRoundHalfEven hB A x).unique h

/-- SINE at the start of the turn. -/
theorem sineEntry_zero {B : ℕ} (hB : 1 ≤ B) (A : ℕ) :
    sineEntry A B 0 = if B = 1 then 0 else 2 ^ (B - 1) :=
  sineEntry_eq_of_isRoundHalfEven hB (sineValue_zero A B ▸ isRoundHalfEven_half_amp hB)

/-- SINE at `N/2`. -/
theorem sineEntry_half_turn {B : ℕ} (hB : 1 ≤ B) (A : ℕ) :
    sineEntry (A + 1) B (2 ^ A) = if B = 1 then 0 else 2 ^ (B - 1) := by
  apply sineEntry_eq_of_isRoundHalfEven hB
  rw [← one_mul (2 ^ A), sineValue_mul_two_pow, sineValue_half_turn]
  exact isRoundHalfEven_half_amp hB

/-- SINE at `N/4`. -/
theorem sineEntry_quarter_turn {B : ℕ} (hB : 1 ≤ B) (A : ℕ) :
    sineEntry (A + 2) B (2 ^ A) = 2 ^ B - 1 := by
  apply sineEntry_eq_of_isRoundHalfEven hB
  rw [← one_mul (2 ^ A), sineValue_mul_two_pow, sineValue_quarter_turn]
  exact_mod_cast isRoundHalfEven_intCast (2 ^ B - 1)

/-- SINE at `3N/4`. -/
theorem sineEntry_three_quarter_turn {B : ℕ} (hB : 1 ≤ B) (A : ℕ) :
    sineEntry (A + 2) B (3 * 2 ^ A) = 0 := by
  apply sineEntry_eq_of_isRoundHalfEven hB
  rw [sineValue_mul_two_pow, sineValue_three_quarter_turn]
  exact_mod_cast isRoundHalfEven_intCast 0

/-- Settles O36: the search brackets the exact value, so the entry is its rounding; the corner cases are
roundings of known sines. -/
theorem sineTableIsTheRoundedSine : Obligations.SineTableIsTheRoundedSine := by
  refine ⟨fun A B x hB _ => ?_, fun A B hB => ?_, ?_, ?_, ?_, ?_, ?_⟩
  · obtain ⟨h0, hle⟩ := sineValue_mem_range A B x
    have hround := sineEntry_isRoundHalfEven hB A x
    exact ⟨hround, hround.mem_sample_range h0 hle⟩
  · exact ⟨sineEntry_zero hB A, sineEntry_half_turn hB A, sineEntry_quarter_turn hB A,
      sineEntry_three_quarter_turn hB A⟩
  · exact sineEntry_zero (B := 12) (by norm_num) 12
  · decide +kernel
  · exact sineEntry_quarter_turn (B := 12) (by norm_num) 10
  · exact sineEntry_half_turn (B := 12) (by norm_num) 11
  · exact sineEntry_three_quarter_turn (B := 12) (by norm_num) 10

end Sys2Proof.Machine
end

section
/-! PROOF. SQUARE (40_wavetable.md R83). -/

namespace Sys2Proof.Machine

/-- SQUARE is the full scale in the first half of the table. -/
theorem squareEntry_first_half {A x : ℕ} (B : ℕ) (h : 2 * x < 2 ^ A) :
    squareEntry A B x = 2 ^ B - 1 := by
  rw [squareEntry, if_pos h, natCast_amp]

/-- SQUARE is 0 in the second half of the table. -/
theorem squareEntry_second_half {A x : ℕ} (B : ℕ) (h : 2 ^ A ≤ 2 * x) : squareEntry A B x = 0 :=
  if_neg (not_lt.mpr h)

/-- Settles O37: the two halves are the two branches of the entry. -/
theorem squareTableFollowsItsRule : Obligations.SquareTableFollowsItsRule := by
  refine ⟨fun A B x _ => ⟨fun h => ?_, fun h => ?_⟩, fun B => ?_, ?_, ?_⟩
  · rw [lt_div_iff₀' two_pos] at h
    exact squareEntry_first_half B (by exact_mod_cast h)
  · rw [div_le_iff₀' two_pos] at h
    exact squareEntry_second_half B (by exact_mod_cast h)
  · exact squareEntry_first_half B (by norm_num)
  · exact squareEntry_first_half 12 (by norm_num)
  · exact squareEntry_second_half 12 (by norm_num)

end Sys2Proof.Machine
end

section
/-! PROOF. TRIANGLE (40_wavetable.md R84). -/

namespace Sys2Proof.Machine

/-- The exact value of TRIANGLE before rounding (40_wavetable.md R84). -/
noncomputable def triangleValue (A B x : ℕ) : ℝ :=
  (2 : ℝ) ^ A / 2
    + 2 * ((2 : ℝ) ^ B - 1) / 2 ^ A * |realMod (x + (2 : ℝ) ^ A / 4) (2 ^ A) - (2 : ℝ) ^ A / 2|
    - ((2 : ℝ) ^ B - 1) / 2

/-- The real remainder of a number of quarters is a number of quarters, that of the integer remainder. -/
theorem realMod_div_four (a n : ℕ) :
    realMod ((a : ℝ) / 4) n = ((a % (4 * n) : ℕ) : ℝ) / 4 := by
  have hfloor : ⌊(a : ℝ) / 4 / n⌋ = ((a / (4 * n) : ℕ) : ℤ) := by
    rw [div_div]
    exact_mod_cast floor_natCast_div_natCast a (4 * n)
  have hmod : ((a % (4 * n) : ℕ) : ℝ) + 4 * n * (a / (4 * n) : ℕ) = a := by
    exact_mod_cast Nat.mod_add_div a (4 * n)
  rw [realMod, hfloor, Int.cast_natCast]
  linarith

/-- `triangleU4` is four times the distance `u(x)`, with the offset `N/4` exact (40_wavetable.md R84). -/
theorem triangleU4_eq (A x : ℕ) : (triangleU4 A x : ℝ) =
    4 * |realMod (x + (2 : ℝ) ^ A / 4) (2 ^ A) - (2 : ℝ) ^ A / 2| := by
  have hoffset : (x : ℝ) + 2 ^ A / 4 = ((4 * x + 2 ^ A : ℕ) : ℝ) / 4 := by
    push_cast
    ring
  have hmod := realMod_div_four (4 * x + 2 ^ A) (2 ^ A)
  rw [Nat.cast_pow, Nat.cast_ofNat] at hmod
  have habs : ∀ y : ℝ, 4 * |y| = |4 * y| := fun y => by rw [abs_mul, Nat.abs_ofNat]
  rw [hoffset, hmod, habs, triangleU4, Nat.cast_natAbs]
  generalize (4 * x + 2 ^ A) % (4 * 2 ^ A) = r
  push_cast
  congr 1
  ring

/-- TRIANGLE_RAW is the rounding of TRIANGLE's exact value (40_wavetable.md R84). -/
theorem triangleRaw_isRoundHalfEven (A B x : ℕ) :
    IsRoundHalfEven (triangleValue A B x) (triangleRaw A B x) := by
  have hquot : triangleValue A B x =
      (((2 ^ A : ℕ) * (2 ^ A : ℕ) + (2 ^ B - 1 : ℕ) * (triangleU4 A x : ℤ)
        - (2 ^ B - 1 : ℕ) * (2 ^ A : ℕ) : ℤ) : ℝ) / (2 * 2 ^ A : ℕ) := by
    push_cast [natCast_amp]
    rw [triangleU4_eq, triangleValue]
    field_simp
    ring
  rw [hquot]
  exact isRoundHalfEven_divRoundHalfEven _ (by positivity)

/-- TRIANGLE is TRIANGLE_RAW clamped to the sample range (92_eei_decisions.md D15). -/
theorem triangleEntry_eq (A B x : ℕ) :
    triangleEntry A B x = min (max (triangleRaw A B x) 0) (2 ^ B - 1) := by
  rw [triangleEntry, clampInt, natCast_amp]

/-- Settles O38: the model's quotient over `2 N` is the exact value, and the entry clamps its rounding. -/
theorem triangleTableFollowsItsRule : Obligations.TriangleTableFollowsItsRule :=
  ⟨fun A B x _ => ⟨triangleRaw_isRoundHalfEven A B x, triangleEntry_eq A B x⟩,
    by decide, by decide, by decide, by decide⟩

end Sys2Proof.Machine
end

section
/-! PROOF. SAWTOOTH (40_wavetable.md R85). -/

namespace Sys2Proof.Machine

/-- The exact value of SAWTOOTH before rounding (40_wavetable.md R85). -/
noncomputable def sawtoothValue (A B x : ℕ) : ℝ :=
  ((2 : ℝ) ^ B - 1) * (x / 2 ^ A - ⌊(1 / 2 : ℝ) + x / 2 ^ A⌋) + ((2 : ℝ) ^ B - 1) / 2

/-- The floor of SAWTOOTH's formula, as the model computes it. -/
theorem sawtooth_floor_eq (A x : ℕ) :
    ⌊(1 / 2 : ℝ) + x / 2 ^ A⌋ = (((2 * x + 2 ^ A) / (2 * 2 ^ A) : ℕ) : ℤ) := by
  have hquot : (1 / 2 : ℝ) + x / 2 ^ A = ((2 * x + 2 ^ A : ℕ) : ℝ) / ((2 * 2 ^ A : ℕ) : ℝ) := by
    push_cast
    field_simp
    ring
  rw [hquot]
  exact floor_natCast_div_natCast _ _

/-- In the first half of the table the floor is 0 (40_wavetable.md R85). -/
theorem sawtooth_floor_first_half {A x : ℕ} (h : (x : ℝ) < 2 ^ A / 2) :
    ⌊(1 / 2 : ℝ) + x / 2 ^ A⌋ = 0 := by
  have hfrac : (x : ℝ) / 2 ^ A < 1 / 2 := by
    rw [div_lt_iff₀ (by positivity)]
    linarith
  exact Int.floor_eq_zero_iff.mpr ⟨by positivity, by linarith⟩

/-- In the second half of the table the floor is 1 (40_wavetable.md R85). -/
theorem sawtooth_floor_second_half {A x : ℕ} (hx : x < 2 ^ A) (h : (2 : ℝ) ^ A / 2 ≤ x) :
    ⌊(1 / 2 : ℝ) + x / 2 ^ A⌋ = 1 := by
  have hlo : 1 / 2 ≤ (x : ℝ) / 2 ^ A := by
    rw [le_div_iff₀ (by positivity)]
    linarith
  have hhi : (x : ℝ) / 2 ^ A < 1 := (div_lt_one (by positivity)).mpr (by exact_mod_cast hx)
  exact Int.floor_eq_iff.mpr ⟨by push_cast; linarith, by push_cast; linarith⟩

/-- SAWTOOTH's exact value is in `[0, AMP)`: the difference to the floor is in `[-1/2, 1/2)`. -/
theorem sawtoothValue_mem_range {B : ℕ} (hB : 1 ≤ B) (A x : ℕ) :
    0 ≤ sawtoothValue A B x ∧ sawtoothValue A B x < 2 ^ B - 1 := by
  have hamp : (0 : ℝ) < 2 ^ B - 1 := sub_pos.mpr (one_lt_pow₀ one_lt_two (by omega))
  have hlo := Int.floor_le ((1 / 2 : ℝ) + x / 2 ^ A)
  have hhi := Int.lt_floor_add_one ((1 / 2 : ℝ) + x / 2 ^ A)
  unfold sawtoothValue
  constructor
  · nlinarith only [hamp, hlo]
  · nlinarith only [hamp, hhi]

/-- SAWTOOTH's entry is the rounding of its exact value (40_wavetable.md R85). -/
theorem sawtoothEntry_isRoundHalfEven (A B x : ℕ) :
    IsRoundHalfEven (sawtoothValue A B x) (sawtoothEntry A B x) := by
  have hquot : sawtoothValue A B x =
      ((2 * (2 ^ B - 1 : ℕ) * ((x : ℤ) - (2 ^ A : ℕ) * ((2 * x + 2 ^ A) / (2 * 2 ^ A) : ℕ))
        + (2 ^ B - 1 : ℕ) * (2 ^ A : ℕ) : ℤ) : ℝ) / (2 * 2 ^ A : ℕ) := by
    rw [sawtoothValue, sawtooth_floor_eq]
    generalize (2 * x + 2 ^ A) / (2 * 2 ^ A) = fl
    push_cast [natCast_amp]
    field_simp
  rw [hquot]
  exact isRoundHalfEven_divRoundHalfEven _ (by positivity)

/-- At the defaults SAWTOOTH never reaches the full scale: the numerator stays half a step below it. -/
theorem sawtoothEntry_defaults_le (x : ℕ) : sawtoothEntry 12 12 x ≤ 4094 := by
  have hround := divRoundHalfEven_spec
    (2 * 4095 * ((x : ℤ) - 4096 * ((2 * x + 4096) / 8192 : ℕ)) + 4095 * 4096)
    (den := 8192) (by norm_num)
  have hentry : sawtoothEntry 12 12 x = divRoundHalfEven
    (2 * 4095 * ((x : ℤ) - 4096 * ((2 * x + 4096) / 8192 : ℕ)) + 4095 * 4096) 8192 := rfl
  rw [hentry]
  omega

/-- Settles O39: the model's quotient over `2 N` is the exact value, whose range bounds the entry. -/
theorem sawtoothTableFollowsItsRule : Obligations.SawtoothTableFollowsItsRule := by
  refine ⟨fun A B x hB hx => ?_, by decide, by decide, by decide,
    fun x _ => sawtoothEntry_defaults_le x⟩
  obtain ⟨h0, hlt⟩ := sawtoothValue_mem_range hB A x
  have hround := sawtoothEntry_isRoundHalfEven A B x
  exact ⟨hround, sawtooth_floor_first_half, sawtooth_floor_second_half hx, h0, hlt,
    hround.mem_sample_range h0 hlt.le⟩

end Sys2Proof.Machine
end

section
/-! SUPPORT and PROOF. The raw tuning word as an exact floor (41_frequency_tuning.md R100). -/

namespace Sys2Proof.Machine

/-- A rational of at least 0 is its numerator, as a natural number, over its denominator. -/
theorem natCast_num_div_den {q : ℚ} (hq : 0 ≤ q) : (q.num.toNat : ℚ) / q.den = q := by
  have hnum : (q.num.toNat : ℤ) = q.num := Int.toNat_of_nonneg (Rat.num_nonneg.mpr hq)
  rw [← Int.cast_natCast, hnum, Rat.num_div_den]

/-- The quotient of rationals is the model's quotient of cross-multiplied natural numbers. -/
theorem tuningQuotient_eq_div {p : Params} {f : ℚ} (hFS : 0 < p.FS) (hf : 0 ≤ f) :
    f * 2 ^ p.W / p.FS =
      ((f.num.toNat * 2 ^ p.W * p.FS.den : ℕ) : ℚ) / ((f.den * p.FS.num.toNat : ℕ) : ℚ) := by
  conv_lhs => rw [← natCast_num_div_den hf, ← natCast_num_div_den hFS.le]
  push_cast
  rw [div_mul_eq_mul_div, div_div_div_eq]

/-- The raw tuning word is the floor of the exact quotient (41_frequency_tuning.md R100). -/
theorem ftwRaw_eq_floor {p : Params} {f : ℚ} (hFS : 0 < p.FS) (hf : 0 ≤ f) :
    ftwRaw p f = ⌊f * 2 ^ p.W / p.FS⌋₊ := by
  rw [tuningQuotient_eq_div hFS hf, Nat.floor_div_eq_div, ftwRaw]

/-- The raw tuning word reaches `n` where `f` reaches `n` steps of `FS / 2^W`. -/
theorem le_ftwRaw_iff {p : Params} {f : ℚ} (hFS : 0 < p.FS) (hf : 0 ≤ f) (n : ℕ) :
    n ≤ ftwRaw p f ↔ n * p.FS ≤ f * 2 ^ p.W := by
  rw [ftwRaw_eq_floor hFS hf, Nat.le_floor_iff (by positivity), le_div_iff₀ hFS]

/-- The raw tuning word needs more than `W` bits from `FS` on (41_frequency_tuning.md R102). -/
theorem two_pow_le_ftwRaw_iff {p : Params} {f : ℚ} (hFS : 0 < p.FS) (hf : 0 ≤ f) :
    2 ^ p.W ≤ ftwRaw p f ↔ p.FS ≤ f := by
  rw [le_ftwRaw_iff hFS hf, Nat.cast_pow, Nat.cast_ofNat, mul_comm,
    mul_le_mul_iff_left₀ (by positivity)]

/-- Below `FS` the raw tuning word has `W` bits (41_frequency_tuning.md R102). -/
theorem ftwRaw_lt_two_pow_iff {p : Params} {f : ℚ} (hFS : 0 < p.FS) (hf : 0 ≤ f) :
    ftwRaw p f < 2 ^ p.W ↔ f < p.FS := by
  rw [← not_le, two_pow_le_ftwRaw_iff hFS hf, not_le]

/-- The rule's two forms of the quotient agree (41_frequency_tuning.md R100): `N * 2^(W - A)` is
`2^W`. -/
theorem tuningQuotient_eq_of_N (p : Params) (f : ℚ) (hA : p.A ≤ p.W) :
    (p.N : ℚ) * f * 2 ^ (p.W - p.A) / p.FS = f * 2 ^ p.W / p.FS := by
  rw [Params.N, Nat.cast_pow, Nat.cast_ofNat, mul_comm _ f, mul_assoc, pow_mul_pow_sub 2 hA]

/-- Settles O29: the model's quotient of naturals is the floor of the rational quotient. -/
theorem rawTuningWordIsTheExactFloor : Obligations.RawTuningWordIsTheExactFloor := by
  rintro p f ⟨-, hA, hFS, -⟩ hf
  have hfloor : (ftwRaw p f : ℤ) = ⌊f * 2 ^ p.W / p.FS⌋ := by
    rw [ftwRaw_eq_floor hFS hf, Int.natCast_floor_eq_floor (by positivity)]
  exact ⟨by rw [tuningQuotient_eq_of_N p f hA.le, hfloor], hfloor⟩

end Sys2Proof.Machine
end

section
/-! SUPPORT and PROOF. The tuning word under each policy (41_frequency_tuning.md R101). -/

namespace Sys2Proof.Machine

section Policy

variable {p : Params} {f : ℚ}

/-- Under `reject` the tuning word is the raw one. -/
theorem ftu_of_reject (h : p.policy = .reject) : ftu p f = ftwRaw p f := by
  rw [ftu, h]

/-- Under `wrap` the tuning word is the low `W` bits of the raw one. -/
theorem ftu_of_wrap (h : p.policy = .wrap) : ftu p f = ftwRaw p f % 2 ^ p.W := by
  rw [ftu, h]

/-- Under `clamp` the tuning word is the raw one or the largest `W`-bit value. -/
theorem ftu_of_clamp (h : p.policy = .clamp) : ftu p f = min (ftwRaw p f) (2 ^ p.W - 1) := by
  rw [ftu, h]

/-- A raw tuning word of `W` bits is the tuning word under every policy. -/
theorem ftu_eq_ftwRaw_of_lt (h : ftwRaw p f < 2 ^ p.W) : ftu p f = ftwRaw p f := by
  cases hpol : p.policy with
  | reject => exact ftu_of_reject hpol
  | wrap => rw [ftu_of_wrap hpol, Nat.mod_eq_of_lt h]
  | clamp => rw [ftu_of_clamp hpol, min_eq_left (Nat.le_sub_one_of_lt h)]

/-- The tuning word has `W` bits, under `reject` because the raw one has. -/
theorem ftu_lt_two_pow (h : p.policy = .reject → ftwRaw p f < 2 ^ p.W) : ftu p f < 2 ^ p.W := by
  have hpos : 0 < 2 ^ p.W := Nat.two_pow_pos _
  cases hpol : p.policy with
  | reject => exact ftu_of_reject hpol ▸ h hpol
  | wrap => exact ftu_of_wrap hpol ▸ Nat.mod_lt _ hpos
  | clamp => exact ftu_of_clamp hpol ▸ (min_le_right _ _).trans_lt (Nat.sub_one_lt_of_lt hpos)

end Policy

/-- The tuning word of a good state has `W` bits (41_frequency_tuning.md R101). -/
theorem Good.ftu_lt {s : State} (h : Good s) : ftu s.par s.fout < 2 ^ s.par.W := by
  obtain ⟨-, -, hFS, -⟩ := h.legal
  exact ftu_lt_two_pow fun hpol => (ftwRaw_lt_two_pow_iff hFS h.fout_nonneg).mpr (h.fout_lt hpol)

/-- Settles O30: one equation per policy, and `fout` is below `FS` in a good state under `reject`. -/
theorem tuningWordFollowsThePolicy : Obligations.TuningWordFollowsThePolicy :=
  ⟨fun _ _ => ⟨ftu_of_reject, ftu_of_wrap, ftu_of_clamp⟩, fun _ => Good.ftu_lt⟩

end Sys2Proof.Machine
end

section
/-! PROOF. SET_FREQUENCY (41_frequency_tuning.md R103, 60_exceptions.md R172). -/

namespace Sys2Proof.Machine

/-- SET_FREQUENCY refuses exactly the raw tuning words above `2^W - 1` under `reject`. -/
theorem frequencyAccepted_eq_false_iff (p : Params) (f : ℚ) :
    frequencyAccepted p f = false ↔ p.policy = .reject ∧ 2 ^ p.W - 1 < ftwRaw p f := by
  simp [frequencyAccepted]

/-- A refused frequency is reported and changes nothing else. -/
theorem setFrequencyTo_of_refused {f : ℚ} {s : State}
    (h : s.par.policy = .reject ∧ 2 ^ s.par.W - 1 < ftwRaw s.par f) :
    setFrequencyTo f s = .next { s with result := some (.error .frequencyOutOfRange) } :=
  setFrequencyTo_next_iff.mpr (.inr ⟨(frequencyAccepted_eq_false_iff _ _).mpr h, rfl⟩)

/-- A frequency that is not refused is written to `fout`, and nothing else changes. -/
theorem setFrequencyTo_of_not_refused {f : ℚ} {s : State}
    (h : ¬ (s.par.policy = .reject ∧ 2 ^ s.par.W - 1 < ftwRaw s.par f)) :
    setFrequencyTo f s = .next { s with fout := f, result := some .ok } := by
  rw [← frequencyAccepted_eq_false_iff, Bool.not_eq_false] at h
  exact setFrequencyTo_next_iff.mpr (.inl ⟨h, rfl⟩)

/-- The next state is the error's exactly where the frequency is refused: acceptance reports `ok`. -/
theorem setFrequencyTo_eq_error_iff {f : ℚ} {s : State} :
    setFrequencyTo f s = .next { s with result := some (.error .frequencyOutOfRange) } ↔
      s.par.policy = .reject ∧ 2 ^ s.par.W - 1 < ftwRaw s.par f := by
  refine ⟨fun h => ?_, setFrequencyTo_of_refused⟩
  obtain ⟨-, heq⟩ | ⟨hrefused, -⟩ := setFrequencyTo_next_iff.mp h
  · exact absurd (congrArg State.result heq) (by simp)
  · exact (frequencyAccepted_eq_false_iff _ _).mp hrefused

/-- Under `reject` the refused frequencies are those from `FS` on (60_exceptions.md R172). -/
theorem setFrequencyTo_eq_error_iff_FS_le {f : ℚ} {s : State} (hFS : 0 < s.par.FS)
    (hpol : s.par.policy = .reject) (hf : 0 ≤ f) :
    setFrequencyTo f s = .next { s with result := some (.error .frequencyOutOfRange) } ↔
      s.par.FS ≤ f := by
  have hpos : 0 < 2 ^ s.par.W := Nat.two_pow_pos _
  rw [setFrequencyTo_eq_error_iff, and_iff_right hpol, ← two_pow_le_ftwRaw_iff hFS hf]
  omega

/-- SET_FREQUENCY of a field is that of the field's frequency in Hz (30_encoding.md R64). -/
theorem exec_setFrequency_eq (F : BitVec 48) (s : State) :
    exec (.setFrequency F) s = setFrequencyTo ((F.toNat : ℚ) / 2 ^ 16) s :=
  congrArg (setFrequencyTo · s) (freqOfField_eq_div F)

/-- In the last step below `FS` the tuning word is the largest `W`-bit value, under every policy. -/
theorem ftu_last_step {p : Params} {f : ℚ} (hFS : 0 < p.FS)
    (hlo : p.FS * (2 ^ p.W - 1) / 2 ^ p.W ≤ f) (hhi : f < p.FS) : ftu p f = 2 ^ p.W - 1 := by
  have hW : (0 : ℚ) ≤ 2 ^ p.W - 1 := sub_nonneg.mpr (one_le_pow₀ one_le_two)
  have hf : 0 ≤ f := le_trans (by positivity) hlo
  have hlt := (ftwRaw_lt_two_pow_iff hFS hf).mpr hhi
  have hge : 2 ^ p.W - 1 ≤ ftwRaw p f := by
    rw [le_ftwRaw_iff hFS hf, natCast_amp, mul_comm]
    exact (div_le_iff₀ (by positivity)).mp hlo
  rw [ftu_eq_ftwRaw_of_lt hlt]
  omega

/-- At `FS` the raw tuning word is the first with more than `W` bits. -/
theorem ftwRaw_FS {p : Params} (hFS : 0 < p.FS) : ftwRaw p p.FS = 2 ^ p.W := by
  rw [ftwRaw_eq_floor hFS hFS.le, mul_div_cancel_left₀ _ hFS.ne']
  exact_mod_cast Nat.floor_natCast (R := ℚ) (2 ^ p.W)

/-- The rule's corner cases: 0, just below `FS`, and `FS` under `wrap` and `clamp`. -/
theorem ftu_corner_cases {p : Params} (hFS : 0 < p.FS) : ftu p 0 = 0 ∧
    (∀ f, p.FS * (2 ^ p.W - 1) / 2 ^ p.W ≤ f → f < p.FS → ftu p f = 2 ^ p.W - 1) ∧
    (p.policy = .wrap → ftu p p.FS = 0) ∧ (p.policy = .clamp → ftu p p.FS = 2 ^ p.W - 1) := by
  refine ⟨ftu_zero p, fun f => ftu_last_step hFS, fun hpol => ?_, fun hpol => ?_⟩
  · rw [ftu_of_wrap hpol, ftwRaw_FS hFS, Nat.mod_self]
  · rw [ftu_of_clamp hpol, ftwRaw_FS hFS, min_eq_right (Nat.sub_le _ _)]

/-- The field `0x000001B80000` is 440 Hz, which the defaults accept (41_frequency_tuning.md R103). -/
theorem exec_setFrequency_440 {s : State} (hs : s.par = Params.defaults) :
    exec (.setFrequency 0x000001B80000) s = .next { s with fout := 440, result := some .ok } := by
  have hfield : freqOfField 0x000001B80000 = 440 := by decide
  have haccepted : frequencyAccepted s.par 440 = true := by
    rw [hs]
    decide
  rw [exec_setFrequency_next_iff, hfield]
  exact .inl ⟨haccepted, rfl⟩

/-- Settles O28: both outcomes are those of `setFrequencyTo`, the word form only converts the field, and
the corner cases are facts about the exact floor. -/
theorem setFrequencyFollowsItsRule : Obligations.SetFrequencyFollowsItsRule := by
  refine ⟨exec_setFrequency_eq, fun F s h => ?_, fun f s hpol h => ?_, fun f s h => ?_,
    fun f s hlegal hpol hf => ?_, fun p hlegal => ?_, fun s hs => ?_⟩
  · exact (exec_setFrequency_eq F s).trans (setFrequencyTo_of_not_refused h)
  · exact setFrequencyTo_of_refused ⟨hpol, h⟩
  · exact setFrequencyTo_of_not_refused h
  · obtain ⟨-, -, hFS, -⟩ := hlegal
    exact (setFrequencyTo_eq_error_iff_FS_le hFS hpol hf).symm
  · obtain ⟨-, -, hFS, -⟩ := hlegal
    exact ftu_corner_cases hFS
  · exact ⟨exec_setFrequency_440 hs, by rw [hs]; decide⟩

end Sys2Proof.Machine
end

section
/-! SUPPORT. The table address and the sample selector (42_phase_accumulator.md R122, R123), and the
next state of each operation of the phase accumulator family as an equation. -/

namespace Sys2Proof.Machine

/-- For an accumulator in range the bits above the phase fraction are an address, with no bit cut
off (42_phase_accumulator.md R122). -/
theorem addr_eq_div {p : Params} {count : ℕ} (hA : p.A ≤ p.W) (hcount : count < 2 ^ p.W) :
    addr p count = count / 2 ^ (p.W - p.A) := by
  have htop : count / 2 ^ (p.W - p.A) < 2 ^ p.A := by
    rwa [Nat.div_lt_iff_lt_mul (Nat.two_pow_pos _), pow_mul_pow_sub 2 hA]
  exact Nat.mod_eq_of_lt htop

/-- The bits below the address select nothing (42_phase_accumulator.md R122). -/
theorem addr_congr {p : Params} {count c : ℕ}
    (h : count / 2 ^ (p.W - p.A) = c / 2 ^ (p.W - p.A)) : addr p count = addr p c :=
  congrArg (· % 2 ^ p.A) h

/-- The accumulator at 0 selects the first entry. -/
@[simp] theorem addr_zero (p : Params) : addr p 0 = 0 := by
  simp [addr]

/-- Under a table waveform the sample is the entry at the address (42_phase_accumulator.md R123). -/
theorem selectSample_of_table {wave : Wave} {tb : Table} (h : waveTable wave = some tb) (p : Params)
    (a out : ℕ) : selectSample p wave a out = tableRead p.A p.B tb a := by
  simp [selectSample, h]

/-- TICK with reset asserted, the whole next state (42_phase_accumulator.md R125). -/
theorem exec_tick_asserted (s : State) : exec (.tick true) s =
    .next { s with rst := true, count := 0, out := s.par.outInit,
                   result := some (.sample s.par.outInit) } :=
  exec_tick_asserted_next_iff.mpr rfl

/-- TICK with reset released, the whole next state (42_phase_accumulator.md R120, R121). -/
theorem exec_tick_released (s : State) : exec (.tick false) s =
    .next { s with
      rst := false
      out := selectSample s.par s.wave (addr s.par s.count) s.out
      count := advanceCount s.par s.count (ftu s.par s.fout)
      result := some (.sample (selectSample s.par s.wave (addr s.par s.count) s.out)) } :=
  exec_tick_released_next_iff.mpr rfl

/-- RESET_ASSERT, the whole next state (42_phase_accumulator.md R126). -/
theorem exec_resetAssert (s : State) : exec .resetAssert s =
    .next { s with rst := true, count := 0, out := s.par.outInit, result := some .ok } :=
  exec_resetAssert_next_iff.mpr rfl

/-- RESET_RELEASE, the whole next state (42_phase_accumulator.md R127). -/
theorem exec_resetRelease (s : State) :
    exec .resetRelease s = .next { s with rst := false, result := some .ok } :=
  exec_resetRelease_next_iff.mpr rfl

end Sys2Proof.Machine
end

section
/-! PROOF. TICK and the table address (42_phase_accumulator.md R120 to R125). -/

namespace Sys2Proof.Machine

/-- R120's example at the defaults: SINE at the address 0, and the tuning word of 440 Hz. -/
theorem exec_tick_example {s : State} (hpar : s.par = Params.defaults) (hcount : s.count = 0)
    (hwave : s.wave = .sine) (hfout : s.fout = 440) :
    ftu s.par s.fout = 153 ∧ exec (.tick false) s =
      .next { s with rst := false, out := 2048, count := 153, result := some (.sample 2048) } := by
  have hinc : ftu s.par s.fout = 153 := by
    rw [hpar, hfout]
    decide
  have hsample : selectSample s.par s.wave (addr s.par s.count) s.out = 2048 := by
    rw [selectSample_of_table (tb := .sine) (by rw [hwave]; rfl), hpar, hcount, addr_zero]
    decide
  have hadvance : advanceCount s.par s.count (ftu s.par s.fout) = 153 := by
    rw [hinc, hpar, hcount]
    decide
  exact ⟨hinc, by rw [exec_tick_released, hsample, hadvance]⟩

/-- Settles O15: the next state is the equation of each reset level, where the address in range is a
quotient and the selector agrees with the rule's list at each waveform. -/
theorem tickFollowsItsRule : Obligations.TickFollowsItsRule := by
  refine ⟨exec_tick_asserted, fun s hA hcount o ho => ?_, fun s => exec_tick_example⟩
  have hsample : o = selectSample s.par s.wave (addr s.par s.count) s.out := by
    rw [ho, addr_eq_div hA hcount]
    cases s.wave <;> rfl
  rw [hsample]
  exact exec_tick_released s

/-- TICK emits the same sample from any two accumulator values with the same address. -/
theorem exec_tick_released_of_addr_eq {s t : State} {c : ℕ}
    (haddr : addr s.par s.count = addr s.par c) (h : exec (.tick false) s = .next t) :
    ∃ t', exec (.tick false) { s with count := c } = .next t' ∧
      t'.out = t.out ∧ t'.result = t.result := by
  obtain rfl := exec_tick_released_next_iff.mp h
  exact ⟨_, exec_tick_released _, by simp [haddr], by simp [haddr]⟩

/-- At the defaults the address is bits 23 to 12 of the accumulator (42_phase_accumulator.md
R122). -/
theorem addr_defaults (count : BitVec 24) :
    addr Params.defaults count.toNat = (count.extractLsb' 12 12).toNat := by
  rw [BitVec.extractLsb'_toNat, Nat.shiftRight_eq_div_pow]
  rfl

/-- Settles O16: the address is a quotient below `N`, and TICK reads the accumulator through it. -/
theorem addressIsTheTopBits : Obligations.AddressIsTheTopBits :=
  ⟨fun p count hA hcount => ⟨addr_eq_div hA hcount, addr_lt p count⟩, addr_defaults,
    fun _ _ _ hdiv => exec_tick_released_of_addr_eq (addr_congr hdiv)⟩

end Sys2Proof.Machine
end

section
/-! PROOF. RESET_ASSERT and RESET_RELEASE (42_phase_accumulator.md R126, R127). -/

namespace Sys2Proof.Machine

/-- Where the reset is held already, RESET_ASSERT writes what the registers hold
(42_phase_accumulator.md R126, R128). -/
theorem assertReset_of_held {s : State} (hgood : Good s) (hrst : s.rst = true) :
    assertReset s = s := by
  obtain ⟨hcount, hout⟩ := hgood.held hrst
  rw [assertReset, ← hrst, ← hcount, ← hout]

/-- Where the reset is not held, RESET_RELEASE writes what the register holds. -/
theorem releaseReset_of_released {s : State} (hrst : s.rst = false) : releaseReset s = s := by
  rw [releaseReset, ← hrst]

/-- Settles O17: the next state is the operation's equation, and a good state with the reset held is
the one that `assertReset` makes. -/
theorem resetAssertFollowsItsRule : Obligations.ResetAssertFollowsItsRule := by
  refine ⟨exec_resetAssert, fun s hgood hrst => ?_,
    fun s _ _ => ⟨_, exec_resetAssert s, rfl, rfl⟩⟩
  rw [exec_resetAssert_next_iff, assertReset_of_held hgood hrst]

/-- The values of a reset stay until a TICK with the reset released (42_phase_accumulator.md R127):
every other operation loads them or leaves both registers alone. -/
theorem exec_keeps_reset_values {i : Instr} {s t : State} (hcount : s.count = 0)
    (hout : s.out = s.par.outInit) (hi : i ≠ .tick false) (h : exec i s = .next t) :
    t.count = 0 ∧ t.out = t.par.outInit := by
  cases i with
  | tick r =>
    cases r with
    | false => exact absurd rfl hi
    | true =>
      obtain rfl := exec_tick_asserted_next_iff.mp h
      exact ⟨rfl, rfl⟩
  | setWaveform sel =>
    obtain ⟨v, -, rfl⟩ | ⟨-, rfl⟩ := exec_setWaveform_next_iff.mp h
    · exact ⟨hcount, hout⟩
    · exact ⟨hcount, hout⟩
  | setFrequency F =>
    obtain ⟨-, rfl⟩ | ⟨-, rfl⟩ := exec_setFrequency_next_iff.mp h
    · exact ⟨hcount, hout⟩
    · exact ⟨hcount, hout⟩
  | resetAssert =>
    obtain rfl := exec_resetAssert_next_iff.mp h
    exact ⟨rfl, rfl⟩
  | resetRelease =>
    obtain rfl := exec_resetRelease_next_iff.mp h
    exact ⟨hcount, hout⟩

/-- A TICK from the accumulator at 0 emits the first entry of the table (42_phase_accumulator.md
R127). -/
theorem exec_tick_first_entry {s : State} {tb : Table} (hcount : s.count = 0)
    (htable : waveTable s.wave = some tb) : ∃ t, exec (.tick false) s = .next t ∧
      t.result = some (.sample (tableRead s.par.A s.par.B tb 0)) := by
  refine ⟨_, exec_tick_released s, ?_⟩
  rw [selectSample_of_table htable, hcount, addr_zero]

/-- The rule's example: after a reset is asserted and released, the next TICK emits `SINE[0]`
(42_phase_accumulator.md R127). -/
theorem exec_reset_then_tick {s : State} (hwave : s.wave = .sine) :
    ∃ a b c, exec .resetAssert s = .next a ∧ exec .resetRelease a = .next b ∧
      exec (.tick false) b = .next c ∧
      c.result = some (.sample (tableRead s.par.A s.par.B .sine 0)) := by
  obtain ⟨c, hc, hresult⟩ := exec_tick_first_entry (tb := .sine)
    (s := { s with rst := false, count := 0, out := s.par.outInit, result := some .ok })
    rfl (by rw [hwave]; rfl)
  exact ⟨_, _, c, exec_resetAssert s, exec_resetRelease _, hc, hresult⟩

/-- Settles O18: the next state is the operation's equation, the reset's values are an invariant of
all operations but TICK with `r = 0`, and that TICK then reads the first entry. -/
theorem resetReleaseFollowsItsRule : Obligations.ResetReleaseFollowsItsRule := by
  refine ⟨exec_resetRelease, fun s hrst => ?_, fun i s t => exec_keeps_reset_values,
    fun s => exec_reset_then_tick⟩
  rw [exec_resetRelease_next_iff, releaseReset_of_released hrst]

end Sys2Proof.Machine
end

section
/-! PROOF. SET_WAVEFORM and the waveform register (43_waveform_state.md R150, R152, R153). -/

namespace Sys2Proof.Machine

/-- A code names a waveform exactly where it is that waveform's code (10_state.md R23). -/
theorem waveOfCode_eq_some_iff (sel : BitVec 3) (v : Wave) :
    waveOfCode sel = some v ↔ waveCode v = sel := by
  revert sel
  cases v <;> decide

/-- The codes 0 to 5 are the waveforms' codes (10_state.md R23). -/
theorem exists_waveCode_eq {sel : BitVec 3} (hsel : sel.toNat ≤ 5) : ∃ v, waveCode v = sel := by
  cases h : waveOfCode sel with
  | none =>
    have hreserved := (waveOfCode_eq_none_iff sel).mp h
    omega
  | some v => exact ⟨v, (waveOfCode_eq_some_iff sel v).mp h⟩

/-- SET_WAVEFORM of a waveform's code, the whole next state (43_waveform_state.md R150). -/
theorem exec_setWaveform_waveCode (v : Wave) (s : State) :
    exec (.setWaveform (waveCode v)) s = .next { s with wave := v, result := some .ok } :=
  exec_setWaveform_next_iff.mpr (.inl ⟨v, waveOfCode_waveCode v, rfl⟩)

/-- Under a waveform without a table the sample stays (42_phase_accumulator.md R124). -/
theorem selectSample_of_no_table {wave : Wave} (h : waveTable wave = none) (p : Params)
    (a out : ℕ) : selectSample p wave a out = out := by
  simp [selectSample, h]

/-- TICK after selecting a waveform without a table keeps the sample register (43_waveform_state.md
R153). -/
theorem exec_setWaveform_then_tick_keeps_out {v : Wave} (hv : waveTable v = none) (s : State) :
    ∃ t u, exec (.setWaveform (waveCode v)) s = .next t ∧ exec (.tick false) t = .next u ∧
      u.out = s.out :=
  ⟨_, _, exec_setWaveform_waveCode v s, exec_tick_released _, selectSample_of_no_table hv _ _ _⟩

/-- R150's example: `out` keeps its value when SQUARE is selected, and the next TICK reads SQUARE at the
first address of the second half. -/
theorem exec_setWaveform_example {s : State} (hpar : s.par = Params.defaults)
    (hcount : s.count = 8388608) :
    ∃ t u, exec (.setWaveform 1) s = .next t ∧ t.out = s.out ∧
      exec (.tick false) t = .next u ∧ u.result = some (.sample 0) := by
  have haddr : addr Params.defaults 8388608 = 2048 := by decide
  have hentry : tableEntry 12 12 .square 2048 = 0 := squareEntry_second_half 12 (by norm_num)
  have hsample : selectSample s.par .square (addr s.par s.count) s.out = 0 := by
    rw [selectSample_of_table (tb := .square) rfl, hpar, hcount, haddr]
    exact congrArg Int.toNat hentry
  exact ⟨_, _, exec_setWaveform_waveCode .square s, rfl, exec_tick_released _,
    congrArg (fun v => some (OpResult.sample v)) hsample⟩

/-- Settles O26: codes 0 to 5 are those of the six waveforms, so one equation gives their next states;
codes 6 and 7 are the reserved ones; PWM and NOISE have no table. -/
theorem setWaveformFollowsItsRule : Obligations.SetWaveformFollowsItsRule := by
  refine ⟨⟨rfl, rfl, rfl, rfl, rfl, rfl⟩, fun s => ?codes, fun s v => exec_setWaveform_waveCode v s,
    fun sel => exists_waveCode_eq, fun s sel hsel => exec_setWaveform_reserved hsel s,
    fun s => exec_setWaveform_waveCode s.wave s, fun s sel hsel => ?freeze, ?word,
    fun s hpar hcount _ => exec_setWaveform_example hpar hcount⟩
  case codes =>
    exact ⟨exec_setWaveform_waveCode .sine s, exec_setWaveform_waveCode .square s,
      exec_setWaveform_waveCode .triangle s, exec_setWaveform_waveCode .sawtooth s,
      exec_setWaveform_waveCode .pwm s, exec_setWaveform_waveCode .noise s,
      exec_setWaveform_reserved (by decide) s, exec_setWaveform_reserved (by decide) s⟩
  case freeze =>
    rcases hsel with rfl | rfl
    · exact exec_setWaveform_then_tick_keeps_out (v := .pwm) rfl s
    · exact exec_setWaveform_then_tick_keeps_out (v := .noise) rfl s
  case word => exact decode_encode (.setWaveform 1)

/-- An operation keeps the waveform, or it is SET_WAVEFORM of the waveform that it leaves
(43_waveform_state.md R152). -/
theorem exec_keeps_wave_or_eq_setWaveform {i : Instr} {s t : State} (h : exec i s = .next t) :
    t.wave = s.wave ∨ i = .setWaveform (waveCode t.wave) := by
  cases i with
  | tick r =>
    cases r with
    | false => obtain rfl := exec_tick_released_next_iff.mp h; exact .inl rfl
    | true => obtain rfl := exec_tick_asserted_next_iff.mp h; exact .inl rfl
  | setWaveform sel =>
    obtain ⟨v, hv, rfl⟩ | ⟨-, rfl⟩ := exec_setWaveform_next_iff.mp h
    · exact .inr (congrArg Instr.setWaveform ((waveOfCode_eq_some_iff sel v).mp hv).symm)
    · exact .inl rfl
  | setFrequency F =>
    obtain ⟨-, rfl⟩ | ⟨-, rfl⟩ := exec_setFrequency_next_iff.mp h
    · exact .inl rfl
    · exact .inl rfl
  | resetAssert => obtain rfl := exec_resetAssert_next_iff.mp h; exact .inl rfl
  | resetRelease => obtain rfl := exec_resetRelease_next_iff.mp h; exact .inl rfl

/-- Settles O27: a step without a word and a step on an illegal word keep the waveform, and a word's
operation that changes it is SET_WAVEFORM of the new one, which fixes the word. -/
theorem onlySetWaveformChangesTheWaveform : Obligations.OnlySetWaveformChangesTheWaveform := by
  intro s t hstep hne
  obtain ⟨-, rfl⟩ | ⟨w, rest, i, hp, hd, hexec⟩ | ⟨w, rest, e, -, -, rfl⟩ := step_next_cases hstep
  · exact absurd rfl hne
  · have hi : i = .setWaveform (waveCode t.wave) :=
      (exec_keeps_wave_or_eq_setWaveform hexec).resolve_left hne
    have hw : w = encode (.setWaveform (waveCode t.wave)) := hi ▸ decode_eq_ok_iff.mp hd
    exact ⟨rest, hw ▸ hp⟩
  · exact absurd rfl hne

end Sys2Proof.Machine
end

section
/-! SUPPORT. What an operation reports, said once: which errors it can report and on what condition, and
that the state is otherwise the one before (60_exceptions.md R170, R176). -/

namespace Sys2Proof.Machine

/-- Every operation that ends reports an outcome (60_exceptions.md R170). -/
theorem exec_reports {i : Instr} {s t : State} (h : exec i s = .next t) :
    ∃ r, t.result = some r := by
  cases i with
  | tick r =>
    cases r with
    | false => obtain rfl := exec_tick_released_next_iff.mp h; exact ⟨_, rfl⟩
    | true => obtain rfl := exec_tick_asserted_next_iff.mp h; exact ⟨_, rfl⟩
  | setWaveform sel =>
    obtain ⟨v, -, rfl⟩ | ⟨-, rfl⟩ := exec_setWaveform_next_iff.mp h <;> exact ⟨_, rfl⟩
  | setFrequency F =>
    obtain ⟨-, rfl⟩ | ⟨-, rfl⟩ := exec_setFrequency_next_iff.mp h <;> exact ⟨_, rfl⟩
  | resetAssert => obtain rfl := exec_resetAssert_next_iff.mp h; exact ⟨_, rfl⟩
  | resetRelease => obtain rfl := exec_resetRelease_next_iff.mp h; exact ⟨_, rfl⟩

/-- The errors an operation reports: FrequencyOutOfRange where SET_FREQUENCY refuses its frequency, and
InvalidWaveform where SET_WAVEFORM's code names no waveform (60_exceptions.md R170). -/
theorem exec_reports_error_iff {i : Instr} {s t : State} (e : OpError) (h : exec i s = .next t) :
    t.result = some (.error e) ↔
      (e = .frequencyOutOfRange ∧
        ∃ F, i = .setFrequency F ∧ frequencyAccepted s.par (freqOfField F) = false) ∨
      (e = .invalidWaveform ∧ ∃ sel, i = .setWaveform sel ∧ waveOfCode sel = none) := by
  cases i with
  | tick r =>
    cases r with
    | false => obtain rfl := exec_tick_released_next_iff.mp h; simp
    | true => obtain rfl := exec_tick_asserted_next_iff.mp h; simp
  | setWaveform sel =>
    obtain ⟨v, hcode, rfl⟩ | ⟨hcode, rfl⟩ := exec_setWaveform_next_iff.mp h
    · simp [hcode]
    · simp [hcode, eq_comm (a := e)]
  | setFrequency F =>
    obtain ⟨hacc, rfl⟩ | ⟨hacc, rfl⟩ := exec_setFrequency_next_iff.mp h
    · simp [hacc]
    · simp [hacc, eq_comm (a := e)]
  | resetAssert => obtain rfl := exec_resetAssert_next_iff.mp h; simp
  | resetRelease => obtain rfl := exec_resetRelease_next_iff.mp h; simp

/-- An operation that reports an error changes nothing but the report (60_exceptions.md R176): the two
operations that can are in the branch that raises it. -/
theorem exec_error_keeps_state {i : Instr} {s t : State} {e : OpError} (h : exec i s = .next t)
    (he : t.result = some (.error e)) : t = { s with result := some (.error e) } := by
  obtain ⟨rfl, F, rfl, hrefused⟩ | ⟨rfl, sel, rfl, hcode⟩ := (exec_reports_error_iff e h).mp he
  · obtain ⟨hacc, -⟩ | ⟨-, ht⟩ := exec_setFrequency_next_iff.mp h
    · exact absurd (hacc.symm.trans hrefused) (by decide)
    · exact ht
  · obtain ⟨v, hv, -⟩ | ⟨-, ht⟩ := exec_setWaveform_next_iff.mp h
    · exact absurd (hv.symm.trans hcode) (Option.some_ne_none v)
    · exact ht

/-- No operation reads the outcome reported before it (60_exceptions.md R176; log 4). -/
theorem exec_forgets_result (i : Instr) (s : State) (r : Option OpResult) :
    exec i { s with result := r } = exec i s := by
  cases i with
  | tick b => cases b <;> rfl
  | setWaveform sel => rfl
  | setFrequency F => rfl
  | resetAssert => rfl
  | resetRelease => rfl

end Sys2Proof.Machine
end

section
/-! PROOF. The outcome table and failed operations (60_exceptions.md R170, R176). -/

namespace Sys2Proof.Machine

/-- The two spellings of the range condition under legal parameters (60_exceptions.md R172). -/
theorem ftwRaw_exceeds_iff_FS_le {p : Params} {f : ℚ} (hFS : 0 < p.FS) (hf : 0 ≤ f) :
    2 ^ p.W - 1 < ftwRaw p f ↔ p.FS ≤ f := by
  have hpos : 0 < 2 ^ p.W := Nat.two_pow_pos _
  rw [← two_pow_le_ftwRaw_iff hFS hf]
  omega

/-- The reserved codes by number (10_state.md R23). -/
theorem waveOfCode_eq_none_iff_six_or_seven (sel : BitVec 3) :
    waveOfCode sel = none ↔ sel = 6 ∨ sel = 7 := by
  revert sel
  decide

/-- FrequencyOutOfRange is SET_FREQUENCY's under `reject` with a raw tuning word above `2^W - 1`
(60_exceptions.md R170). -/
theorem exec_frequencyOutOfRange_iff {i : Instr} {s t : State} (h : exec i s = .next t) :
    t.result = some (.error .frequencyOutOfRange) ↔ ∃ F, i = .setFrequency F ∧
      s.par.policy = .reject ∧ 2 ^ s.par.W - 1 < ftwRaw s.par (freqOfField F) := by
  simp [exec_reports_error_iff _ h, frequencyAccepted_eq_false_iff]

/-- InvalidWaveform is SET_WAVEFORM's of the codes 6 and 7 (60_exceptions.md R170). -/
theorem exec_invalidWaveform_iff {i : Instr} {s t : State} (h : exec i s = .next t) :
    t.result = some (.error .invalidWaveform) ↔ i = .setWaveform 6 ∨ i = .setWaveform 7 := by
  simp [exec_reports_error_iff _ h, waveOfCode_eq_none_iff_six_or_seven, and_or_left, exists_or]

/-- No decoded operation reports IllegalOperation (60_exceptions.md R170). -/
theorem exec_result_ne_illegalOperation {i : Instr} {s t : State} (h : exec i s = .next t) :
    t.result ≠ some (.error .illegalOperation) := by
  simp [exec_reports_error_iff _ h]

/-- IllegalOperation is the outcome of a step exactly on an illegal word (60_exceptions.md R170, R174). -/
theorem step_illegalOperation_iff {s t : State} {w : Word} {rest : List Word}
    (hp : s.pending = w :: rest) (h : step s = .next t) :
    t.result = some (.error .illegalOperation) ↔ IllegalWord w := by
  cases hd : decode w with
  | ok i =>
    obtain rfl := decode_eq_ok_iff.mp hd
    rw [step_encode hp] at h
    exact iff_of_false (exec_result_ne_illegalOperation h) (not_illegalWord_encode i)
  | error e =>
    obtain rfl := Host.Outcome.next.inj ((step_of_decode_error hp hd).symm.trans h)
    exact iff_of_true rfl (illegalWord_of_decode_error hd)

/-- Settles O11: each error is the report of one branch of one operation, or of a rejected word. -/
theorem outcomesFollowTheirTable : Obligations.OutcomesFollowTheirTable := by
  refine ⟨fun i s t hlegal h => ?_, fun s t w rest => step_illegalOperation_iff,
    rfl, fun _ => rfl, rfl, rfl, rfl⟩
  obtain ⟨-, -, hFS, -⟩ := hlegal
  have hraw := exec_frequencyOutOfRange_iff h
  have hrange (F : BitVec 48) : 2 ^ s.par.W - 1 < ftwRaw s.par (freqOfField F) ↔
      s.par.FS ≤ freqOfField F := ftwRaw_exceeds_iff_FS_le hFS (freqOfField_mem_range F).1
  exact ⟨exec_reports h, hraw, by simpa only [hrange] using hraw, exec_invalidWaveform_iff h,
    exec_result_ne_illegalOperation h⟩

/-- A step that reports an error takes its word and changes nothing else but the report
(60_exceptions.md R176). -/
theorem step_error_keeps_state {s t : State} {w : Word} {rest : List Word} {e : OpError}
    (hp : s.pending = w :: rest) (h : step s = .next t) (he : t.result = some (.error e)) :
    t = { s with pending := rest, result := some (.error e) } := by
  cases hd : decode w with
  | ok i =>
    obtain rfl := decode_eq_ok_iff.mp hd
    rw [step_encode hp] at h
    exact exec_error_keeps_state h he
  | error d =>
    obtain rfl := Host.Outcome.next.inj ((step_of_decode_error hp hd).symm.trans h)
    rw [← he]

/-- Settles O12: an error is reported only on the branches that raise it, and no arm reads the report. -/
theorem failedOperationChangesNothing : Obligations.FailedOperationChangesNothing :=
  ⟨fun _ _ _ _ => exec_error_keeps_state, fun _ _ _ _ _ => step_error_keeps_state,
    exec_forgets_result⟩

end Sys2Proof.Machine
end

section
/-! SUPPORT. The generator's range check passes for every legal depth (40_wavetable.md R86). -/

namespace Sys2Proof.Machine

/-- Every entry of every table is a sample: SINE and SAWTOOTH round a value in the sample range, SQUARE
takes its ends, and TRIANGLE is clamped (40_wavetable.md R86). -/
theorem tableEntry_mem_sample_range {B : ℕ} (hB : 1 ≤ B) (A : ℕ) (tb : Table) (x : ℕ) :
    0 ≤ tableEntry A B tb x ∧ tableEntry A B tb x ≤ 2 ^ B - 1 := by
  have hamp : (0 : ℤ) ≤ 2 ^ B - 1 := sub_nonneg.mpr (one_le_pow₀ one_le_two)
  cases tb with
  | sine =>
    obtain ⟨h0, hle⟩ := sineValue_mem_range A B x
    exact (sineEntry_isRoundHalfEven hB A x).mem_sample_range h0 hle
  | square =>
    change 0 ≤ squareEntry A B x ∧ squareEntry A B x ≤ 2 ^ B - 1
    rcases lt_or_ge (2 * x) (2 ^ A) with h | h
    · rw [squareEntry_first_half B h]
      exact ⟨hamp, le_rfl⟩
    · rw [squareEntry_second_half B h]
      exact ⟨le_rfl, hamp⟩
  | triangle =>
    change 0 ≤ triangleEntry A B x ∧ triangleEntry A B x ≤ 2 ^ B - 1
    rw [triangleEntry_eq]
    exact ⟨le_min (le_max_right _ _) hamp, min_le_right _ _⟩
  | sawtooth =>
    obtain ⟨h0, hlt⟩ := sawtoothValue_mem_range hB A x
    exact (sawtoothEntry_isRoundHalfEven A B x).mem_sample_range h0 hlt.le

/-- The range check of one table passes for every legal depth. -/
theorem tableInRange_of_pos {B : ℕ} (hB : 1 ≤ B) (A : ℕ) (tb : Table) :
    tableInRange A B tb = true := by
  refine List.all_eq_true.mpr fun x _ => decide_eq_true ?_
  rw [natCast_amp]
  exact tableEntry_mem_sample_range hB A tb x

/-- The range check of the four tables passes for every legal depth, so WavetableRangeError is never
raised (60_exceptions.md R175). -/
theorem tablesInRange_of_pos {B : ℕ} (hB : 1 ≤ B) (A : ℕ) : tablesInRange A B = true := by
  simp [tablesInRange, tableInRange_of_pos hB]

end Sys2Proof.Machine
end

section
/-! PROOF. Elaboration (60_exceptions.md R171, 70_reset_and_hazards.md R190). -/

namespace Sys2Proof.Machine

/-- The exponent of a power of two is what `log2` finds. -/
theorem log2_toNat_two_pow (k : ℕ) : ((2 : ℤ) ^ k).toNat.log2 = k := by
  rw [← Nat.cast_ofNat, ← Nat.cast_pow, Int.toNat_natCast, Nat.log2_two_pow]

/-- The model's test accepts exactly the powers of two (00_scope.md R7). -/
theorem isPowerOfTwo_iff (n : ℤ) : isPowerOfTwo n = true ↔ ∃ k : ℕ, n = 2 ^ k := by
  simp only [isPowerOfTwo, Bool.and_eq_true, decide_eq_true_eq, beq_iff_eq]
  constructor
  · rintro ⟨hpos, hlog⟩
    refine ⟨n.toNat.log2, ?_⟩
    rw [← Int.toNat_of_nonneg hpos.le]
    exact_mod_cast hlog.symm
  · rintro ⟨k, rfl⟩
    rw [log2_toNat_two_pow]
    exact ⟨by positivity, by norm_cast⟩

/-- The request for a table of `2^k` entries, by the other checks (60_exceptions.md R171). -/
theorem requestParams_two_pow (k : ℕ) (B W : ℤ) (FS : ℚ) (o : ℤ) (pol : OvfPolicy) :
    requestParams { N := 2 ^ k, B := B, W := W, FS := FS, outInit := o, policy := some pol } =
      if 0 < B ∧ (k : ℤ) < W ∧ 0 < FS ∧ 0 ≤ o ∧ o ≤ 2 ^ B.toNat - 1 then
        some { A := k, B := B.toNat, W := W.toNat, FS := FS, outInit := o.toNat, policy := pol }
      else none := by
  have hN : isPowerOfTwo (2 ^ k) = true := (isPowerOfTwo_iff _).mpr ⟨k, rfl⟩
  simp only [requestParams, hN, log2_toNat_two_pow, natCast_amp, true_and]

/-- Without a power of two or without a policy no parameters are named (60_exceptions.md R171). -/
theorem requestParams_eq_none_of_not {r : Request}
    (h : (¬ ∃ k : ℕ, r.N = 2 ^ k) ∨ r.policy = none) : requestParams r = none := by
  unfold requestParams
  rcases h with hN | hpol
  · rw [← isPowerOfTwo_iff] at hN
    cases r.policy <;> simp [hN]
  · simp [hpol]

/-- Legal parameters are named by their own request (60_exceptions.md R171). -/
theorem requestParams_request {p : Params} (hp : p.legal) : requestParams p.request = some p := by
  obtain ⟨hB, hW, hFS, hout⟩ := hp
  have hout' : (p.outInit : ℤ) ≤ 2 ^ p.B - 1 := by
    rw [← natCast_amp]
    exact_mod_cast hout
  have hN : (p.N : ℤ) = 2 ^ p.A := by simp [Params.N]
  rw [Params.request, hN, requestParams_two_pow]
  exact if_pos ⟨by omega, by exact_mod_cast hW, hFS, by omega, hout'⟩

/-- The parameters that a request names are legal, and it is their request (60_exceptions.md R171). -/
theorem legal_of_requestParams {r : Request} {p : Params} (h : requestParams r = some p) :
    p.legal ∧ p.request = r := by
  obtain ⟨N, B, W, FS, o, pol⟩ := r
  obtain ⟨k, rfl⟩ : ∃ k : ℕ, N = 2 ^ k := by
    by_contra hN
    cases (requestParams_eq_none_of_not (.inl hN)).symm.trans h
  obtain ⟨pol, rfl⟩ : ∃ q, pol = some q := by
    refine Option.ne_none_iff_exists'.mp fun hpol => ?_
    cases (requestParams_eq_none_of_not (.inr hpol)).symm.trans h
  rw [requestParams_two_pow] at h
  split_ifs at h with hr
  obtain ⟨hB, hW, hFS, ho, hout⟩ := hr
  obtain rfl := Option.some.inj h
  lift B to ℕ using hB.le
  lift W to ℕ using by omega
  lift o to ℕ using ho
  rw [← natCast_amp] at hout
  refine ⟨⟨by exact_mod_cast hB, by exact_mod_cast hW, hFS, by exact_mod_cast hout⟩, ?_⟩
  simp [Params.request, Params.N]

/-- A request names no parameters exactly where it breaks one of R171's conditions. -/
theorem requestParams_eq_none_iff (r : Request) : requestParams r = none ↔
    (¬ ∃ k : ℕ, r.N = 2 ^ k) ∨ r.B ≤ 0 ∨ (∃ k : ℕ, r.N = 2 ^ k ∧ r.W ≤ k) ∨ r.FS ≤ 0 ∨
    r.outInit < 0 ∨ (2 : ℤ) ^ r.B.toNat - 1 < r.outInit ∨ r.policy = none := by
  obtain ⟨N, B, W, FS, o, pol⟩ := r
  by_cases hN : ∃ k : ℕ, N = 2 ^ k
  case neg => exact iff_of_true (requestParams_eq_none_of_not (.inl hN)) (.inl hN)
  obtain ⟨k, rfl⟩ := hN
  cases pol with
  | none => simp [requestParams_eq_none_of_not]
  | some pol =>
    rw [requestParams_two_pow]
    simp [not_and_or, -not_and]

/-- Elaboration fails with InvalidConfig where the request names no parameters. -/
theorem elaborate_of_none {r : Request} (h : requestParams r = none) :
    elaborate r = .fault .invalidConfig := by
  rw [elaborate, h]

/-- Elaboration gives the power-on state of the parameters that the request names: they are legal, so
the tables pass their check (70_reset_and_hazards.md R190). -/
theorem elaborate_of_some {r : Request} {p : Params} (h : requestParams r = some p) :
    elaborate r = .next (State.powerOn p) := by
  obtain ⟨⟨hB, -, -, -⟩, -⟩ := legal_of_requestParams h
  rw [elaborate, h]
  exact if_pos (tablesInRange_of_pos hB p.A)

/-- InvalidConfig is the answer exactly where the request names no parameters (60_exceptions.md R171). -/
theorem elaborate_eq_invalidConfig_iff (r : Request) :
    elaborate r = .fault .invalidConfig ↔ requestParams r = none := by
  refine ⟨fun h => ?_, elaborate_of_none⟩
  cases hp : requestParams r with
  | none => rfl
  | some p => cases (elaborate_of_some hp).symm.trans h

/-- Settles O44: the checks decide whether a request names parameters; those it names are legal, so the
tables are in range and the power-on state follows. -/
theorem elaborationFollowsItsRules : Obligations.ElaborationFollowsItsRules := by
  refine ⟨fun r => ?_, fun r h => ?_, fun p hp => elaborate_of_some (requestParams_request hp)⟩
  · rw [elaborate_eq_invalidConfig_iff, requestParams_eq_none_iff]
  · rw [Ne, elaborate_eq_invalidConfig_iff] at h
    obtain ⟨p, hp⟩ := Option.ne_none_iff_exists'.mp h
    obtain ⟨hlegal, hreq⟩ := legal_of_requestParams hp
    exact ⟨p, hlegal, hreq, elaborate_of_some hp⟩

end Sys2Proof.Machine
end

section
/-! PROOF. The latency from a frequency change to the samples (70_reset_and_hazards.md R194). -/

namespace Sys2Proof.Machine

/-- TICK emits a sample that does not depend on the output frequency: the frequency reaches the
accumulator only, and the sample is read from the accumulator before the edge. -/
theorem exec_tick_out_forgets_fout {s t t' : State} {f : ℚ} (h : exec (.tick false) s = .next t)
    (h' : exec (.tick false) { s with fout := f } = .next t') : t'.out = t.out := by
  obtain rfl := exec_tick_released_next_iff.mp h
  obtain rfl := exec_tick_released_next_iff.mp h'
  simp

/-- The second of two TICKs emits the entry at the address the first one advanced to: the first keeps
the waveform and the parameters, and the second reads before it advances. -/
theorem exec_tick_twice_out {s t u : State} {tb : Table} (htable : waveTable s.wave = some tb)
    (ht : exec (.tick false) s = .next t) (hu : exec (.tick false) t = .next u) :
    u.out = tableRead s.par.A s.par.B tb
      (addr s.par (advanceCount s.par s.count (ftu s.par s.fout))) := by
  obtain rfl := exec_tick_released_next_iff.mp ht
  obtain rfl := exec_tick_released_next_iff.mp hu
  simp [selectSample_of_table htable]

/-- Settles O25: the first TICK after the change reads the old accumulator, and the second reads the one
that the first advanced at the new rate. -/
theorem sampleLagsTheFrequencyByOneTick : Obligations.SampleLagsTheFrequencyByOneTick := by
  intro s t f ht
  obtain ⟨t', ht'⟩ := exec_total (.tick false) { s with fout := f }
  obtain ⟨u, hu⟩ := exec_total (.tick false) t'
  exact ⟨t', u, ht', exec_tick_out_forgets_fout ht ht', hu,
    fun _ htable => exec_tick_twice_out (s := { s with fout := f }) htable ht' hu⟩

end Sys2Proof.Machine
end

section
/-! PROOF. The decoder's table, its inverse and a few words of it (30_encoding.md R61 to R67). -/

namespace Sys2Proof.Machine

/-- The decoder's table on the words with a zero reserved field, by operation code and payload
(30_encoding.md R67): on each line the conditions choose one branch of the decoder. -/
theorem decode_table {w : Word} (hres : w.toNat / 2 ^ 48 % 2 ^ 12 = 0) :
    (w.toNat / 2 ^ 60 = 1 → w.toNat % 2 ^ 48 < 2 →
      decode w = .ok (.tick (decide (w.toNat % 2 = 1)))) ∧
    (w.toNat / 2 ^ 60 = 2 → w.toNat % 2 ^ 48 < 8 →
      decode w = .ok (.setWaveform (BitVec.ofNat 3 w.toNat))) ∧
    (w.toNat / 2 ^ 60 = 3 → decode w = .ok (.setFrequency (BitVec.ofNat 48 w.toNat))) ∧
    (w.toNat / 2 ^ 60 = 4 → w.toNat % 2 ^ 48 = 0 → decode w = .ok .resetAssert) ∧
    (w.toNat / 2 ^ 60 = 5 → w.toNat % 2 ^ 48 = 0 → decode w = .ok .resetRelease) := by
  rw [decode_eq_arith, if_neg (not_not.mpr hres)]
  refine ⟨fun hop hpay => ?_, fun hop hpay => ?_, fun hop => ?_, fun hop hpay => ?_,
    fun hop hpay => ?_⟩
  · rw [if_pos hop, if_neg (not_le.mpr hpay)]
  · rw [hop, if_neg (by decide), if_pos rfl, if_neg (not_le.mpr hpay)]
  · rw [hop]
    rfl
  · rw [hop, hpay]
    rfl
  · rw [hop, hpay]
    rfl

/-- Settles O2: the table is the decoder's branches, the illegal words are the rejected ones, and an
accepted word is its operation's word. -/
theorem decoderReadsEveryWordAndEncodeInverts : Obligations.DecoderReadsEveryWordAndEncodeInverts :=
  fun _ => ⟨decode_table, decode_error_of_illegalWord, fun _ => encode_of_decode⟩

/-- Settles O3: the fields of an operation's word are its operation code and payload, which name it. -/
theorem everyOperationRoundTrips : Obligations.EveryOperationRoundTrips :=
  fun i _ => decode_encode i

/-- Settles O7: each word is written out by its value, which is that of its operation's word. -/
theorem sampleWordsDecode : Obligations.SampleWordsDecode := by
  refine ⟨?_, ?_, ?_, ?_, ?_, ?_⟩
  · rw [decode_eq_ok_iff_toNat, encode_tick_toNat]
    decide
  · rw [decode_eq_ok_iff_toNat, encode_tick_toNat]
    decide
  · rw [decode_eq_ok_iff_toNat, encode_setWaveform_toNat]
    decide
  · rw [decode_eq_ok_iff_toNat, encode_setFrequency_toNat]
    decide
  · rw [decode_eq_ok_iff_toNat, encode_resetAssert_toNat]
    decide
  · rw [decode_eq_ok_iff_toNat, encode_resetRelease_toNat]
    decide

end Sys2Proof.Machine
end

section
/-! SUPPORT and PROOF. The ROM read (20_memory.md R42, 40_wavetable.md R86). -/

namespace Sys2Proof.Machine

/-- A ROM read gives the whole entry, which is not negative (20_memory.md R42). -/
theorem natCast_tableRead {B : ℕ} (hB : 1 ≤ B) (A : ℕ) (tb : Table) (x : ℕ) :
    (tableRead A B tb x : ℤ) = tableEntry A B tb x :=
  Int.toNat_of_nonneg (tableEntry_mem_sample_range hB A tb x).1

/-- A ROM read gives a sample (40_wavetable.md R86). -/
theorem tableRead_le_amp {B : ℕ} (hB : 1 ≤ B) (A : ℕ) (tb : Table) (x : ℕ) :
    tableRead A B tb x ≤ 2 ^ B - 1 := by
  have hle := (tableEntry_mem_sample_range hB A tb x).2
  rw [← natCast_tableRead hB, ← natCast_amp] at hle
  exact_mod_cast hle

/-- Settles O40: every entry is in the sample range, so its read is exact and the range check passes. -/
theorem tablesStayInRange : Obligations.TablesStayInRange := by
  refine fun A B hB => ⟨fun tb x _ => ?_, tablesInRange_of_pos hB A⟩
  obtain ⟨h0, hle⟩ := tableEntry_mem_sample_range hB A tb x
  exact ⟨h0, hle, natCast_tableRead hB A tb x⟩

end Sys2Proof.Machine
end

section
/-! PROOF. Power-on, and the invariant of the legal states (10_state.md R20 to R26, R32,
42_phase_accumulator.md R128). Each part of an operation keeps the invariant by a lemma of its own. -/

namespace Sys2Proof.Machine

/-- The parameters of 00_scope.md R8 are legal. -/
theorem defaults_legal : Params.defaults.legal := by decide

/-- The power-on state of legal parameters is good: the registers hold 0 and OUT_INIT. -/
theorem good_powerOn {p : Params} (hp : p.legal) : Good (State.powerOn p) := by
  obtain ⟨hB, hW, hFS, hout⟩ := hp
  exact
    { legal := ⟨hB, hW, hFS, hout⟩
      count_lt := Nat.two_pow_pos _
      out_le := hout
      fout_nonneg := le_rfl
      fout_lt := fun _ => hFS
      held := fun hrst => absurd hrst Bool.false_ne_true }

/-- Settles O48: the reset state is the power-on state of the defaults, which are legal. -/
theorem powerOnIsGood : Obligations.PowerOnIsGood :=
  ⟨good_powerOn defaults_legal, fun _ => good_powerOn⟩

/-- Settles O45: the defaults are legal, so their own request elaborates to their power-on state. -/
theorem resetIsTheElaboratedDefaults : Obligations.ResetIsTheElaboratedDefaults :=
  ⟨elaborate_of_some (requestParams_request defaults_legal), rfl, rfl, rfl, rfl⟩

/-- Settles O47: RESET_ASSERT's next state, at registers that hold the reset's values already. -/
theorem powerOnIsTheResetStateReleased : Obligations.PowerOnIsTheResetStateReleased :=
  fun p => exec_resetAssert (State.powerOn p)

/-- A sample that the selector gives is in range where the old one is (40_wavetable.md R86). -/
theorem selectSample_le_amp {p : Params} (hB : 1 ≤ p.B) {out : ℕ} (hout : out ≤ p.AMP)
    (wave : Wave) (a : ℕ) : selectSample p wave a out ≤ p.AMP := by
  obtain ⟨tb, -, h⟩ | ⟨-, h⟩ := selectSample_cases p wave a out
  · exact h.trans_le (tableRead_le_amp hB p.A tb a)
  · exact h.trans_le hout

section Keeps

variable {s : State} (h : Good s)
include h

/-- The host's side of the interface is no part of the invariant (log 3, log 4). -/
theorem Good.of_host_fields (ws : List Word) (r : Option OpResult) :
    Good { s with pending := ws, result := r } :=
  ⟨h.legal, h.count_lt, h.out_le, h.fout_nonneg, h.fout_lt, h.held⟩

/-- Asserting the reset loads the values that a held reset has (42_phase_accumulator.md R128). -/
theorem Good.after_assertReset : Good (assertReset s) := by
  obtain ⟨hB, hW, hFS, hout⟩ := h.legal
  exact ⟨⟨hB, hW, hFS, hout⟩, Nat.two_pow_pos _, hout, h.fout_nonneg, h.fout_lt,
    fun _ => ⟨rfl, rfl⟩⟩

/-- Releasing the reset leaves nothing held. -/
theorem Good.after_releaseReset : Good (releaseReset s) :=
  ⟨h.legal, h.count_lt, h.out_le, h.fout_nonneg, h.fout_lt,
    fun hrst => absurd hrst Bool.false_ne_true⟩

/-- A clock edge with the reset released loads a sample and an accumulator value in range. -/
theorem Good.after_clockEdge (hrst : s.rst = false) : Good (clockEdge s) := by
  obtain ⟨hB, -⟩ := h.legal
  exact ⟨h.legal, advanceCount_lt _ _ _, selectSample_le_amp hB h.out_le _ _, h.fout_nonneg,
    h.fout_lt, fun hheld => absurd (hrst.symm.trans hheld) Bool.false_ne_true⟩

/-- The waveform register has no illegal value (10_state.md R23). -/
theorem Good.after_setWave (v : Wave) : Good { s with wave := v } :=
  ⟨h.legal, h.count_lt, h.out_le, h.fout_nonneg, h.fout_lt, h.held⟩

/-- An accepted frequency is below `FS` under `reject` (41_frequency_tuning.md R102). -/
theorem Good.after_setFout {f : ℚ} (hf : 0 ≤ f) (hacc : frequencyAccepted s.par f = true) :
    Good { s with fout := f } := by
  obtain ⟨-, -, hFS, -⟩ := h.legal
  refine ⟨h.legal, h.count_lt, h.out_le, hf, fun hpol => ?_, h.held⟩
  exact (ftwRaw_lt_two_pow_iff hFS hf).mp ((frequencyAccepted_iff _ _).mp hacc hpol)

/-- Every operation keeps the invariant: each arm is one of the parts above, with a report. -/
theorem Good.after_exec {i : Instr} {t : State} (hexec : exec i s = .next t) : Good t := by
  cases i with
  | tick r =>
    cases r with
    | false =>
      obtain rfl := exec_tick_released_next_iff.mp hexec
      exact (h.after_releaseReset.after_clockEdge rfl).of_host_fields _ _
    | true =>
      obtain rfl := exec_tick_asserted_next_iff.mp hexec
      exact h.after_assertReset.of_host_fields _ _
  | setWaveform sel =>
    obtain ⟨v, -, rfl⟩ | ⟨-, rfl⟩ := exec_setWaveform_next_iff.mp hexec
    · exact (h.after_setWave v).of_host_fields _ _
    · exact h.of_host_fields _ _
  | setFrequency F =>
    obtain ⟨hacc, rfl⟩ | ⟨-, rfl⟩ := exec_setFrequency_next_iff.mp hexec
    · exact (h.after_setFout (freqOfField_mem_range F).1 hacc).of_host_fields _ _
    · exact h.of_host_fields _ _
  | resetAssert =>
    obtain rfl := exec_resetAssert_next_iff.mp hexec
    exact h.after_assertReset.of_host_fields _ _
  | resetRelease =>
    obtain rfl := exec_resetRelease_next_iff.mp hexec
    exact h.after_releaseReset.of_host_fields _ _

end Keeps

/-- Settles O49: a step without a word and a step on an illegal word write no register, and every
operation keeps the invariant. -/
theorem everyStepKeepsTheStateGood : Obligations.EveryStepKeepsTheStateGood := by
  intro s t hs hstep
  obtain ⟨-, rfl⟩ | ⟨w, rest, i, -, -, hexec⟩ | ⟨w, rest, e, -, -, rfl⟩ := step_next_cases hstep
  · exact hs
  · exact (hs.of_host_fields rest s.result).after_exec hexec
  · exact hs.of_host_fields _ _

end Sys2Proof.Machine
end

section
/-! PROOF. Steps and the frames of the operations (10_state.md R30, 60_exceptions.md R178, R182,
R184). -/

namespace Sys2Proof.Machine

/-- A step with nothing pending answers the state itself (60_exceptions.md R184; log 6). -/
theorem step_of_pending_nil {s : State} (hp : s.pending = []) : step s = .next s := by
  rw [step, fetch_eq_none_iff.mpr hp, idle]

/-- Every step ends in a next state (log 5, log 6): what it runs is total, and an illegal word is
reported. -/
theorem step_total (s : State) : ∃ t, step s = .next t := by
  cases hp : s.pending with
  | nil => exact ⟨s, step_of_pending_nil hp⟩
  | cons w rest =>
    cases hd : decode w with
    | ok i =>
      obtain rfl := decode_eq_ok_iff.mp hd
      rw [step_encode hp]
      exact exec_total i _
    | error e => exact ⟨_, step_of_decode_error hp hd⟩

/-- Settles O8: a word that decodes to an operation is that operation's word. -/
theorem stepRunsTheDecodedOperation : Obligations.StepRunsTheDecodedOperation := by
  intro s w rest i hp hd
  obtain rfl := decode_eq_ok_iff.mp hd
  exact step_encode hp

/-- Settles O9: the empty queue is the idle step, and a word issued to it is the next one taken. -/
theorem idleStepKeepsTheState : Obligations.IdleStepKeepsTheState := by
  refine fun s hp => ⟨step_of_pending_nil hp, fun i => ?_⟩
  have hs : { enqueue [encode i] s with pending := [] } = s := by rw [← hp]; rfl
  rw [step_encode (i := i) (rest := []) (by simp [hp]), hs]

/-- Settles O10: both levels of TICK report the sample they leave, the resets report `ok`, and every
operation and every step is total. -/
theorem noOperationStops : Obligations.NoOperationStops := by
  refine ⟨fun s r => ?_, fun s => ⟨_, exec_resetAssert s, rfl⟩,
    fun s => ⟨_, exec_resetRelease s, rfl⟩, fun s i => exec_total i s, step_total⟩
  cases r with
  | false => exact ⟨_, exec_tick_released s, rfl⟩
  | true => exact ⟨_, exec_tick_asserted s, rfl⟩

section Frames

variable {s t : State}

/-- TICK writes neither the waveform nor the frequency, and takes its own reset level (10_state.md
R30). -/
theorem exec_tick_frame {r : Bool} (h : exec (.tick r) s = .next t) :
    t.wave = s.wave ∧ t.fout = s.fout ∧ t.rst = r := by
  cases r with
  | false => obtain rfl := exec_tick_released_next_iff.mp h; simp
  | true => obtain rfl := exec_tick_asserted_next_iff.mp h; simp

/-- SET_WAVEFORM writes no register but the waveform (10_state.md R30). -/
theorem exec_setWaveform_frame {sel : BitVec 3} (h : exec (.setWaveform sel) s = .next t) :
    t.count = s.count ∧ t.out = s.out ∧ t.fout = s.fout ∧ t.rst = s.rst := by
  obtain ⟨v, -, rfl⟩ | ⟨-, rfl⟩ := exec_setWaveform_next_iff.mp h <;> simp

/-- SET_FREQUENCY writes no register but the frequency (10_state.md R30). -/
theorem exec_setFrequency_frame {F : BitVec 48} (h : exec (.setFrequency F) s = .next t) :
    t.count = s.count ∧ t.out = s.out ∧ t.wave = s.wave ∧ t.rst = s.rst := by
  obtain ⟨-, rfl⟩ | ⟨-, rfl⟩ := exec_setFrequency_next_iff.mp h <;> simp

/-- RESET_ASSERT writes neither the waveform nor the frequency (10_state.md R30). -/
theorem exec_resetAssert_frame (h : exec .resetAssert s = .next t) :
    t.wave = s.wave ∧ t.fout = s.fout := by
  obtain rfl := exec_resetAssert_next_iff.mp h
  simp

/-- RESET_RELEASE writes no register but the reset level (10_state.md R30). -/
theorem exec_resetRelease_frame (h : exec .resetRelease s = .next t) :
    t.count = s.count ∧ t.out = s.out ∧ t.wave = s.wave ∧ t.fout = s.fout := by
  obtain rfl := exec_resetRelease_next_iff.mp h
  simp

/-- No operation reads the queue, and each leaves it as it is (log 3). -/
theorem exec_commutes_with_queue {i : Instr} (ws : List Word) (h : exec i s = .next t) :
    exec i { s with pending := ws } = .next { t with pending := ws } := by
  cases i with
  | tick r =>
    cases r with
    | false => obtain rfl := exec_tick_released_next_iff.mp h; exact exec_tick_released _
    | true => obtain rfl := exec_tick_asserted_next_iff.mp h; exact exec_tick_asserted _
  | setWaveform sel =>
    obtain ⟨v, hv, rfl⟩ | ⟨hv, rfl⟩ := exec_setWaveform_next_iff.mp h
    · exact exec_setWaveform_next_iff.mpr (.inl ⟨v, hv, rfl⟩)
    · exact exec_setWaveform_next_iff.mpr (.inr ⟨hv, rfl⟩)
  | setFrequency F =>
    obtain ⟨hacc, rfl⟩ | ⟨hacc, rfl⟩ := exec_setFrequency_next_iff.mp h
    · exact exec_setFrequency_next_iff.mpr (.inl ⟨hacc, rfl⟩)
    · exact exec_setFrequency_next_iff.mpr (.inr ⟨hacc, rfl⟩)
  | resetAssert => obtain rfl := exec_resetAssert_next_iff.mp h; exact exec_resetAssert _
  | resetRelease => obtain rfl := exec_resetRelease_next_iff.mp h; exact exec_resetRelease _

end Frames

/-- Settles O13: the frame of each operation, and what none of them writes. -/
theorem operationsWriteOnlyTheirRegisters : Obligations.OperationsWriteOnlyTheirRegisters :=
  fun _ _ => ⟨fun _ => exec_tick_frame, fun _ => exec_setWaveform_frame,
    fun _ => exec_setFrequency_frame, exec_resetAssert_frame, exec_resetRelease_frame,
    fun _ => exec_keeps_par_pending⟩

/-- Settles O14: an operation reads neither the earlier report nor the queue. -/
theorem hostFieldsNeverReachTheRegisters : Obligations.HostFieldsNeverReachTheRegisters :=
  fun i s _ ws r h =>
    (exec_forgets_result i { s with pending := ws } r).trans (exec_commutes_with_queue ws h)

/-- A place where no machine stands does nothing (log 11). -/
theorem stepInstance_of_none {k : ℕ} {sys : List State} (hk : sys[k]? = none) :
    stepInstance k sys = .next sys := by
  rw [stepInstance, hk]

/-- Where a machine stands, its step replaces it and nothing else (60_exceptions.md R182). -/
theorem stepInstance_of_step {k : ℕ} {sys : List State} {s t : State} (hs : sys[k]? = some s)
    (ht : step s = .next t) : stepInstance k sys = .next (sys.set k t) := by
  simp [stepInstance, hs, ht]

/-- Settles O50: where no machine stands nothing happens, and elsewhere only the machine's own place is
written. -/
theorem instancesDoNotTouchEachOther : Obligations.InstancesDoNotTouchEachOther := by
  refine ⟨fun k sys sys' h => ?_, fun k sys s hs => ?_⟩
  · cases hk : sys[k]? with
    | none =>
      obtain rfl := Host.Outcome.next.inj ((stepInstance_of_none hk).symm.trans h)
      exact ⟨rfl, fun _ _ => rfl⟩
    | some s =>
      obtain ⟨t, ht⟩ := step_total s
      obtain rfl := Host.Outcome.next.inj ((stepInstance_of_step hk ht).symm.trans h)
      exact ⟨List.length_set, fun j hj => List.getElem?_set_ne hj.symm⟩
  · obtain ⟨t, ht⟩ := step_total s
    exact ⟨t, ht, stepInstance_of_step hs ht⟩

end Sys2Proof.Machine
end

section
/-! SUPPORT. A run of TICKs with the reset released: the state it reaches is the iterate of one TICK's
next state, and the accumulator in it has a closed form (42_phase_accumulator.md R120, R121). -/

namespace Sys2Proof.Machine

/-- The next state of a TICK with the reset released. -/
def ticked (s : State) : State :=
  { clockEdge (releaseReset s) with
    result := some (.sample (clockEdge (releaseReset s)).out) }

/-- `ticked` is what TICK answers. -/
theorem exec_tick_eq_ticked (s : State) : exec (.tick false) s = .next (ticked s) :=
  exec_tick_released_next_iff.mpr rfl

variable (s : State)

@[simp] theorem ticked_par : (ticked s).par = s.par := rfl
@[simp] theorem ticked_count :
    (ticked s).count = advanceCount s.par s.count (ftu s.par s.fout) := rfl
@[simp] theorem ticked_out :
    (ticked s).out = selectSample s.par s.wave (addr s.par s.count) s.out := rfl
@[simp] theorem ticked_wave : (ticked s).wave = s.wave := rfl
@[simp] theorem ticked_fout : (ticked s).fout = s.fout := rfl
@[simp] theorem ticked_rst : (ticked s).rst = false := rfl
@[simp] theorem ticked_result : (ticked s).result = some (.sample (ticked s).out) := rfl

/-- A TICK does not see the queue. -/
theorem ticked_iterate_with_pending (k : ℕ) (ws : List Word) :
    ticked^[k] { s with pending := ws } = { ticked^[k] s with pending := ws } := by
  induction k with
  | zero => rfl
  | succ k ih =>
    rw [Function.iterate_succ_apply', ih, Function.iterate_succ_apply']
    rfl

/-- No number of TICKs writes the parameters, the waveform or the frequency. -/
theorem ticked_iterate_frame (k : ℕ) : (ticked^[k] s).par = s.par ∧
    (ticked^[k] s).wave = s.wave ∧ (ticked^[k] s).fout = s.fout := by
  induction k with
  | zero => exact ⟨rfl, rfl, rfl⟩
  | succ k ih =>
    rw [Function.iterate_succ_apply']
    exact ih

/-- Over TICKs the accumulator advances by the one tuning word, whatever the other registers hold. -/
theorem ticked_iterate_count (k : ℕ) : (ticked^[k] s).count =
    (fun c => advanceCount s.par c (ftu s.par s.fout))^[k] s.count := by
  induction k with
  | zero => rfl
  | succ k ih =>
    obtain ⟨hpar, -, hfout⟩ := ticked_iterate_frame s k
    rw [Function.iterate_succ_apply', Function.iterate_succ_apply', ticked_count, hpar, hfout, ih]

/-- The accumulator after `k` advances: the sums modulo `2^W` add up. -/
theorem advanceCount_iterate (p : Params) (inc k : ℕ) {c : ℕ} (hc : c < 2 ^ p.W) :
    (fun c => advanceCount p c inc)^[k] c = (c + k * inc) % 2 ^ p.W := by
  induction k with
  | zero => rw [Function.iterate_zero_apply, zero_mul, add_zero, Nat.mod_eq_of_lt hc]
  | succ k ih =>
    rw [Function.iterate_succ_apply', ih, advanceCount, Nat.mod_add_mod, add_assoc, Nat.succ_mul]

/-- The accumulator after `k` TICKs from a value in range (42_phase_accumulator.md R121). -/
theorem ticked_iterate_count_eq (k : ℕ) (hc : s.count < 2 ^ s.par.W) :
    (ticked^[k] s).count = (s.count + k * ftu s.par s.fout) % 2 ^ s.par.W := by
  rw [ticked_iterate_count, advanceCount_iterate _ _ _ hc]

/-- The last of `k + 1` TICKs emits the sample selected at the accumulator after the first `k`. -/
theorem ticked_iterate_succ_out (k : ℕ) : (ticked^[k + 1] s).out =
    selectSample s.par s.wave (addr s.par (ticked^[k] s).count) (ticked^[k] s).out := by
  obtain ⟨hpar, hwave, -⟩ := ticked_iterate_frame s k
  rw [Function.iterate_succ_apply', ticked_out, hpar, hwave]

/-- The last of `k + 1` TICKs reports the sample it emits. -/
theorem ticked_iterate_succ_result (k : ℕ) :
    (ticked^[k + 1] s).result = some (.sample (ticked^[k + 1] s).out) := by
  rw [Function.iterate_succ_apply', ticked_result]

/-- Under a waveform without a table no number of TICKs changes the sample
(42_phase_accumulator.md R124). -/
theorem ticked_iterate_out_of_no_table (k : ℕ) (h : waveTable s.wave = none) :
    (ticked^[k] s).out = s.out := by
  induction k with
  | zero => rfl
  | succ k ih => rw [ticked_iterate_succ_out, selectSample_of_no_table h, ih]

variable {s}

/-- A run over the words of `k` TICKs reaches the iterate, with the rest of the queue left. -/
theorem run_ticks {k : ℕ} {rest : List Word}
    (hp : s.pending = List.replicate k (encode (.tick false)) ++ rest) :
    Host.Core.run core k s = .next { ticked^[k] s with pending := rest } := by
  induction k generalizing s with
  | zero =>
    rw [run_zero, Function.iterate_zero_apply, ← show s.pending = rest from hp]
  | succ k ih =>
    have hstep := (step_encode hp).trans (exec_tick_eq_ticked _)
    rw [run_succ k hstep, ih rfl, ← Function.iterate_succ_apply, ticked_iterate_with_pending]

/-- A run over a queue of `k` TICKs and nothing else. -/
theorem run_only_ticks {k : ℕ} (hp : s.pending = List.replicate k (encode (.tick false))) :
    Host.Core.run core k s = .next { ticked^[k] s with pending := [] } :=
  run_ticks (hp.trans (List.append_nil _).symm)

end Sys2Proof.Machine
end

section
/-! PROOF. The phase accumulator over TICKs (42_phase_accumulator.md R129 to R134). -/

namespace Sys2Proof.Machine

/-- Settles O19: from 0 the accumulator after `k` TICKs is `k * inc`, and TICK `k + 1` reads the table at
its address. -/
theorem samplesFollowThePhase : Obligations.SamplesFollowThePhase := by
  intro k s tb rest hA hcount htable hp
  have hc : s.count < 2 ^ s.par.W := hcount ▸ Nat.two_pow_pos _
  have hk (n : ℕ) : (ticked^[n] s).count = n * ftu s.par s.fout % 2 ^ s.par.W := by
    rw [ticked_iterate_count_eq s n hc, hcount, zero_add]
  obtain ⟨hpar, hwave, hfout⟩ := ticked_iterate_frame s (k + 1)
  refine ⟨_, run_ticks hp, ?_, hk (k + 1), hwave, hfout, hpar, rfl⟩
  have haddr := addr_eq_div hA (Nat.mod_lt (k * ftu s.par s.fout) (Nat.two_pow_pos s.par.W))
  exact (ticked_iterate_succ_result s k).trans (by
    rw [ticked_iterate_succ_out, selectSample_of_table htable, hk, haddr])

/-- The address after an advance is the quotient of the unreduced sum, modulo the table length
(42_phase_accumulator.md R122). -/
theorem addr_advanceCount {p : Params} (hA : p.A ≤ p.W) (count inc : ℕ) :
    addr p (advanceCount p count inc) = (count + inc) / 2 ^ (p.W - p.A) % p.N := by
  rw [addr, advanceCount, Params.FRAC, Params.N, ← pow_sub_mul_pow 2 hA, Nat.mod_mul_right_div_self,
    Nat.mod_mod]

/-- Adding less than one step to a number moves its quotient by 0 or 1. -/
theorem add_div_eq_or_eq_succ {a b m : ℕ} (hb : b < m) :
    (a + b) / m = a / m ∨ (a + b) / m = a / m + 1 := by
  have hm : 0 < m := by omega
  rw [Nat.add_div hm, Nat.div_eq_of_lt hb]
  split <;> simp

/-- Settles O20: below one address step the quotient moves by 0 or 1. -/
theorem slowPhaseSkipsNoAddress : Obligations.SlowPhaseSkipsNoAddress := by
  intro s hA _ hinc
  refine ⟨_, exec_tick_eq_ticked s, ?_⟩
  rw [ticked_par, ticked_count, addr_advanceCount hA]
  rcases add_div_eq_or_eq_succ (a := s.count) hinc with h | h
  · exact .inl (by rw [h]; rfl)
  · exact .inr (by rw [h, ← Nat.mod_add_mod]; rfl)

/-- Settles O21: a sum in `[2^W, 2^(W+1))` loses `2^W`, and TICK reports its sample there as
everywhere. -/
theorem accumulatorWraps : Obligations.AccumulatorWraps := by
  rintro s inc rfl hinc
  refine ⟨fun hsum => ⟨_, exec_tick_eq_ticked s, ?_, rfl⟩,
    fun hcount hsum => ⟨_, exec_tick_eq_ticked s, ?_, rfl⟩⟩
  · rw [ticked_count, advanceCount, hsum, Nat.mod_self]
  · rw [ticked_count, advanceCount, Nat.mod_eq_sub_mod hsum, Nat.mod_eq_of_lt (by omega)]

/-- A multiple of `inc` is one of `m` exactly where its factor is one of `m / gcd inc m`. -/
theorem dvd_mul_iff_div_gcd_dvd {m inc k : ℕ} (hm : 0 < m) :
    m ∣ k * inc ↔ m / Nat.gcd inc m ∣ k := by
  have hg : 0 < Nat.gcd inc m := Nat.gcd_pos_of_pos_right inc hm
  have hcop : (m / Nat.gcd inc m).Coprime (inc / Nat.gcd inc m) :=
    (Nat.coprime_div_gcd_div_gcd hg).symm
  have hinc : inc / Nat.gcd inc m * Nat.gcd inc m = inc := Nat.div_mul_cancel (Nat.gcd_dvd_left inc m)
  have hm' : m / Nat.gcd inc m * Nat.gcd inc m = m := Nat.div_mul_cancel (Nat.gcd_dvd_right inc m)
  calc m ∣ k * inc
      ↔ m / Nat.gcd inc m * Nat.gcd inc m ∣ k * (inc / Nat.gcd inc m) * Nat.gcd inc m := by
        rw [hm', mul_assoc, hinc]
    _ ↔ m / Nat.gcd inc m ∣ k * (inc / Nat.gcd inc m) := Nat.mul_dvd_mul_iff_right hg
    _ ↔ m / Nat.gcd inc m ∣ k := hcop.dvd_mul_right

/-- A value in range is back after an addition exactly where the summand is a multiple of the modulus. -/
theorem add_mod_eq_self_iff {c d m : ℕ} (hc : c < m) : (c + d) % m = c ↔ m ∣ d := by
  rw [← Nat.add_modEq_left_iff (a := c), Nat.ModEq, Nat.mod_eq_of_lt hc]

/-- Settles O22: the accumulator is back where `2^W` divides `k * inc`. -/
theorem phasePeriodIsExact : Obligations.PhasePeriodIsExact := by
  intro k s hcount _ hp
  refine ⟨_, run_only_ticks hp, ?_⟩
  change (ticked^[k] s).count = s.count ↔ _
  rw [ticked_iterate_count_eq s k hcount, add_mod_eq_self_iff hcount,
    dvd_mul_iff_div_gcd_dvd (Nat.two_pow_pos _)]

/-- Settles O23: the accumulator's iteration mentions no waveform, and without a table the sample
stays. -/
theorem phaseIgnoresTheWaveform : Obligations.PhaseIgnoresTheWaveform := by
  intro k s v hp
  obtain ⟨-, hwave, -⟩ := ticked_iterate_frame { s with wave := v } k
  refine ⟨_, _, run_only_ticks hp, run_only_ticks (s := { s with wave := v }) hp, ?_, hwave,
    fun hv => ?_⟩
  · exact (ticked_iterate_count _ k).trans (ticked_iterate_count s k).symm
  · have htable : waveTable v = none := by rcases hv with rfl | rfl <;> rfl
    exact ticked_iterate_out_of_no_table { s with wave := v } k htable

/-- Settles O24: a held reset has the accumulator at 0 and OUT_INIT in the sample register, so the TICK
reads the first entry or keeps OUT_INIT, and leaves the tuning word alone. -/
theorem firstTickAfterResetStartsAtPhaseZero : Obligations.FirstTickAfterResetStartsAtPhaseZero := by
  intro s hgood hrst
  obtain ⟨hcount, hout⟩ := hgood.held hrst
  refine ⟨_, exec_tick_eq_ticked s, rfl, ?_, rfl, fun tb htable => ?_, fun htable => ?_⟩
  · rw [ticked_count, advanceCount, hcount, zero_add, Nat.mod_eq_of_lt hgood.ftu_lt]
  · rw [ticked_out, selectSample_of_table htable, hcount, addr_zero]
  · rw [ticked_out, selectSample_of_no_table htable, hout]

end Sys2Proof.Machine
end

section
/-! PROOF. The range, the monotonicity and the exactness of the tuning word (41_frequency_tuning.md R102,
R104, R105), and the phase at the two ends of its range (R107, R108). -/

namespace Sys2Proof.Machine

section RawWord

variable {p : Params} {f g : ℚ} (hFS : 0 < p.FS) (hf : 0 ≤ f)
include hFS hf

/-- Under `reject` the accepted frequencies are those below `FS` (41_frequency_tuning.md R102). -/
theorem frequencyAccepted_iff_lt_FS (hpol : p.policy = .reject) :
    frequencyAccepted p f = true ↔ f < p.FS := by
  rw [frequencyAccepted_iff, forall_prop_of_true hpol, ftwRaw_lt_two_pow_iff hFS hf]

/-- The frequency lies in the step of `FS / 2^W` that the raw tuning word names, both ends multiplied by
`2^W` (41_frequency_tuning.md R104). -/
theorem ftwRaw_mul_FS_bounds :
    ftwRaw p f * p.FS ≤ f * 2 ^ p.W ∧ f * 2 ^ p.W < (ftwRaw p f + 1) * p.FS := by
  refine ⟨(le_ftwRaw_iff hFS hf _).mp le_rfl, ?_⟩
  have hnext := (le_ftwRaw_iff hFS hf (ftwRaw p f + 1)).not.mp (Nat.not_succ_le_self _)
  exact_mod_cast not_le.mp hnext

/-- The raw tuning word is monotone (41_frequency_tuning.md R105). -/
theorem ftwRaw_mono (hfg : f ≤ g) : ftwRaw p f ≤ ftwRaw p g := by
  rw [le_ftwRaw_iff hFS (hf.trans hfg)]
  calc ftwRaw p f * p.FS ≤ f * 2 ^ p.W := (ftwRaw_mul_FS_bounds hFS hf).1
    _ ≤ g * 2 ^ p.W := by gcongr

/-- Doubling the frequency doubles the raw tuning word within one (41_frequency_tuning.md R105). -/
theorem ftwRaw_two_mul :
    2 * ftwRaw p f ≤ ftwRaw p (2 * f) ∧ ftwRaw p (2 * f) ≤ 2 * ftwRaw p f + 1 := by
  obtain ⟨hlo, hhi⟩ := ftwRaw_mul_FS_bounds hFS hf
  have h2f : 0 ≤ 2 * f := by positivity
  constructor
  · rw [le_ftwRaw_iff hFS h2f]
    push_cast
    linarith
  · rw [← Nat.lt_succ_iff, ← not_le, le_ftwRaw_iff hFS h2f]
    push_cast
    linarith

/-- The tuning word is monotone where it does not wrap (41_frequency_tuning.md R105). -/
theorem ftu_mono (hpol : p.policy ≠ .wrap) (hfg : f ≤ g) : ftu p f ≤ ftu p g := by
  have hraw := ftwRaw_mono hFS hf hfg
  cases h : p.policy with
  | reject => rwa [ftu_of_reject h, ftu_of_reject h]
  | wrap => exact absurd h hpol
  | clamp =>
    rw [ftu_of_clamp h, ftu_of_clamp h]
    exact min_le_min_right _ hraw

end RawWord

/-- Settles O31: the raw word has `W` bits exactly below `FS`, and acceptance says just that. -/
theorem tuningWordInRangeExactlyBelowFS : Obligations.TuningWordInRangeExactlyBelowFS := by
  rintro p f ⟨-, -, hFS, -⟩ hf
  exact ⟨(Nat.le_sub_one_iff_lt (Nat.two_pow_pos _)).trans (ftwRaw_lt_two_pow_iff hFS hf),
    frequencyAccepted_iff_lt_FS hFS hf⟩

/-- Settles O32: the floor's bounds at `f` give those at `g` and at `2 f`. -/
theorem tuningIsMonotoneAndNearlyLinear : Obligations.TuningIsMonotoneAndNearlyLinear := by
  rintro p f g ⟨-, -, hFS, -⟩ hf hfg
  exact ⟨ftwRaw_mono hFS hf hfg, ftwRaw_two_mul hFS hf, fun hpol => ftu_mono hFS hf hpol hfg⟩

/-- Settles O33: where the raw word is the tuning word, the step it names contains the frequency. -/
theorem actualFrequencyIsWithinOneStep : Obligations.ActualFrequencyIsWithinOneStep := by
  intro s hgood hlt
  obtain ⟨-, -, hFS, -⟩ := hgood.legal
  obtain ⟨hlo, hhi⟩ := ftwRaw_mul_FS_bounds hFS hgood.fout_nonneg
  have hW : (0 : ℚ) < 2 ^ s.par.W := by positivity
  rw [ftu_eq_ftwRaw_of_lt hlt]
  refine ⟨(div_le_iff₀ hW).mpr hlo, ?_⟩
  rw [sub_lt_iff_lt_add, ← add_div, lt_div_iff₀ hW]
  linarith

/-- A frequency below one step has the tuning word 0 (41_frequency_tuning.md R107). -/
theorem ftu_eq_zero_of_lt {p : Params} {f : ℚ} (hFS : 0 < p.FS) (hf : 0 ≤ f)
    (hlt : f * 2 ^ p.W < p.FS) : ftu p f = 0 := by
  have hraw : ftwRaw p f = 0 := by
    rw [← Nat.lt_one_iff, ← not_le, le_ftwRaw_iff hFS hf, Nat.cast_one, one_mul, not_le]
    exact hlt
  rw [ftu_eq_ftwRaw_of_lt (hraw ▸ Nat.two_pow_pos _), hraw]

/-- Settles O34: with the tuning word 0 the accumulator stays, so every TICK reads the same address. -/
theorem zeroTuningFreezesThePhase : Obligations.ZeroTuningFreezesThePhase := by
  intro s hgood hlt
  obtain ⟨-, hA, hFS, -⟩ := hgood.legal
  have hinc := ftu_eq_zero_of_lt hFS hgood.fout_nonneg hlt
  have hstay (n : ℕ) : (ticked^[n] s).count = s.count := by
    rw [ticked_iterate_count_eq s n hgood.count_lt, hinc, mul_zero, add_zero,
      Nat.mod_eq_of_lt hgood.count_lt]
  refine ⟨hinc, fun k tb htable hp => ⟨_, run_only_ticks hp, hstay (k + 1), ?_⟩⟩
  exact (ticked_iterate_succ_out s k).trans (by
    rw [selectSample_of_table htable, hstay, addr_eq_div hA.le hgood.count_lt])

/-- At half of `FS` the tuning word is half of the accumulator's range (41_frequency_tuning.md R108). -/
theorem ftu_half_FS {p : Params} (hFS : 0 < p.FS) (hW : 0 < p.W) :
    ftu p (p.FS / 2) = 2 ^ (p.W - 1) := by
  have hpow : (2 : ℚ) ^ p.W = 2 * 2 ^ (p.W - 1) := (mul_pow_sub_one hW.ne' 2).symm
  have hquot : p.FS / 2 * 2 ^ p.W / p.FS = ((2 ^ (p.W - 1) : ℕ) : ℚ) := by
    rw [hpow]
    push_cast
    field_simp
  have hraw : ftwRaw p (p.FS / 2) = 2 ^ (p.W - 1) := by
    rw [ftwRaw_eq_floor hFS (by positivity), hquot, Nat.floor_natCast]
  rw [ftu_eq_ftwRaw_of_lt (hraw ▸ Nat.pow_lt_pow_right one_lt_two (Nat.sub_one_lt hW.ne')), hraw]

/-- Adding half of the range modulo the range moves a value up or down by it. -/
theorem add_half_mod_cases {c m : ℕ} (hc : c < 2 * m) :
    (c + m) % (2 * m) = c + m ∨ c = (c + m) % (2 * m) + m := by
  rcases lt_or_ge c m with h | h
  · exact .inl (Nat.mod_eq_of_lt (by omega))
  · right
    rw [Nat.mod_eq_sub_mod (by omega), Nat.mod_eq_of_lt (by omega)]
    omega

/-- Settles O35: below `FS` no frequency is refused; at `FS / 2` a TICK adds half of the accumulator's
range, and two TICKs add all of it. -/
theorem noHalfRateLimit : Obligations.NoHalfRateLimit := by
  refine ⟨fun s f hlegal _ hf hlt => setFrequencyTo_of_not_refused ?_, fun s hgood hfout => ?_⟩
  · obtain ⟨-, -, hFS, -⟩ := hlegal
    rw [ftwRaw_exceeds_iff_FS_le hFS hf]
    exact fun h => not_le.mpr hlt h.2
  · obtain ⟨-, hA, hFS, -⟩ := hgood.legal
    have hW : 0 < s.par.W := by omega
    have hpow : 2 ^ s.par.W = 2 * 2 ^ (s.par.W - 1) := (mul_pow_sub_one hW.ne' 2).symm
    have hinc : ftu s.par s.fout = 2 ^ (s.par.W - 1) := hfout ▸ ftu_half_FS hFS hW
    have hcount := hgood.count_lt
    have hone : (ticked s).count = (s.count + 2 ^ (s.par.W - 1)) % (2 * 2 ^ (s.par.W - 1)) := by
      rw [ticked_count, advanceCount, hinc, hpow]
    have htwo := ticked_iterate_count_eq s 2 hcount
    rw [hpow] at hcount
    rw [hinc, hpow, Nat.add_mod_right, Nat.mod_eq_of_lt hcount] at htwo
    exact ⟨_, _, exec_tick_eq_ticked s, exec_tick_eq_ticked _, hone ▸ add_half_mod_cases hcount,
      htwo⟩

end Sys2Proof.Machine
end

section
/-! PROOF. SINE's ties and its symmetry (40_wavetable.md R87, R88). -/

namespace Sys2Proof.Machine

/-- At a half-integer SINE's exact value has the sine 0: by Niven's theorem a rational sine of a fraction
of a turn is one of `-1, -1/2, 0, 1/2, 1`, and the full scale is odd, so only 0 gives a half-integer. -/
theorem sin_eq_zero_of_tie {A B x : ℕ} {m : ℤ} (hB : 1 ≤ B)
    (h : (m : ℝ) - 1 / 2 = sineValue A B x) : Real.sin (2 * Real.pi * x / 2 ^ A) = 0 := by
  obtain ⟨b, rfl⟩ := Nat.exists_eq_add_of_le' hB
  have hamp : (0 : ℝ) < 2 * 2 ^ b - 1 := by
    have := one_le_pow₀ (one_le_two (α := ℝ)) (n := b)
    linarith
  rw [sineValue, pow_succ'] at h
  have hangle : ∃ r : ℚ, 2 * Real.pi * x / 2 ^ A = r * Real.pi :=
    ⟨2 * x / 2 ^ A, by push_cast; ring⟩
  have hrat : ∃ q : ℚ, Real.sin (2 * Real.pi * x / 2 ^ A) = q := by
    refine ⟨(2 * m - 1) / (2 * 2 ^ b - 1) - 1, ?_⟩
    push_cast
    rw [eq_sub_iff_add_eq, eq_div_iff hamp.ne']
    linarith
  obtain hs | hs | hs | hs | hs := niven_sin hangle hrat
  · rw [hs] at h
    have : 2 * m - 1 = 0 := by exact_mod_cast (by linarith : 2 * (m : ℝ) - 1 = 0)
    omega
  · rw [hs] at h
    have : 4 * m - 2 = 2 * 2 ^ b - 1 := by
      exact_mod_cast (by linarith : 4 * (m : ℝ) - 2 = 2 * 2 ^ b - 1)
    omega
  · exact hs
  · rw [hs] at h
    have : 4 * m - 2 = 3 * (2 * 2 ^ b - 1) := by
      exact_mod_cast (by linarith : 4 * (m : ℝ) - 2 = 3 * (2 * 2 ^ b - 1))
    omega
  · rw [hs] at h
    have : 2 * m - 1 = 2 * (2 * 2 ^ b - 1) := by
      exact_mod_cast (by linarith : 2 * (m : ℝ) - 1 = 2 * (2 * 2 ^ b - 1))
    omega

/-- Within one turn the sine is 0 only at the start and at half a turn. -/
theorem eq_zero_or_half_of_sin_eq_zero {A x : ℕ} (hx : x < 2 ^ A)
    (h : Real.sin (2 * Real.pi * x / 2 ^ A) = 0) : x = 0 ∨ 2 * x = 2 ^ A := by
  obtain ⟨n, hn⟩ := Real.sin_eq_zero_iff.mp h
  rw [eq_div_iff (by positivity), mul_right_comm, mul_right_comm 2,
    mul_left_inj' Real.pi_ne_zero] at hn
  have hturns : n * 2 ^ A = 2 * x := by exact_mod_cast hn
  have hx' : (x : ℤ) < 2 ^ A := by exact_mod_cast hx
  have hlo : 0 ≤ n := by
    by_contra! hneg
    nlinarith
  have hhi : n < 2 := by
    by_contra! hge
    nlinarith
  interval_cases n
  · omega
  · exact .inr (by exact_mod_cast (one_mul ((2 : ℤ) ^ A) ▸ hturns).symm)

/-- SINE's exact value is a half-integer only at the zeros of the sine (40_wavetable.md R87). -/
theorem sine_tie_only_at_zeros {A B x : ℕ} {m : ℤ} (hB : 1 ≤ B) (hx : x < 2 ^ A)
    (h : (m : ℝ) - 1 / 2 = sineValue A B x) : x = 0 ∨ 2 * x = 2 ^ A :=
  eq_zero_or_half_of_sin_eq_zero hx (sin_eq_zero_of_tie hB h)

/-- Settles O41: the comparison answers `eq` where the exact value is a half-integer. -/
theorem sineTiesOnlyAtTheZeros : Obligations.SineTiesOnlyAtTheZeros := fun A _ x m hB hx h =>
  sine_tie_only_at_zeros (m := m) hB hx (by exact_mod_cast (sineHalfCmp_eq_iff hB A x m).mp h)

/-- SINE's exact value is symmetric about a quarter turn. -/
theorem sineValue_half_turn_sub {a x : ℕ} (B : ℕ) (hx : x ≤ 2 ^ a) :
    sineValue (a + 1) B (2 ^ a - x) = sineValue (a + 1) B x := by
  have hangle : 2 * Real.pi * ((2 ^ a - x : ℕ) : ℝ) / 2 ^ (a + 1) =
      Real.pi - 2 * Real.pi * x / 2 ^ (a + 1) := by
    rw [Nat.cast_sub hx, pow_succ]
    push_cast
    field_simp
  rw [sineValue, hangle, Real.sin_pi_sub, sineValue]

/-- Half a turn on, SINE's exact value is as far from the full scale as it is from 0. -/
theorem sineValue_half_turn_add (a B x : ℕ) :
    sineValue (a + 1) B (2 ^ a + x) = 2 ^ B - 1 - sineValue (a + 1) B x := by
  have hangle : 2 * Real.pi * ((2 ^ a + x : ℕ) : ℝ) / 2 ^ (a + 1) =
      2 * Real.pi * x / 2 ^ (a + 1) + Real.pi := by
    rw [pow_succ]
    push_cast
    field_simp
    ring
  rw [sineValue, hangle, Real.sin_add_pi, sineValue]
  ring

/-- Rounding commutes with the reflection in an integer where the value is no tie; at a tie the even
integer of the one value need not reflect to that of the other. -/
theorem IsRoundHalfEven.intCast_sub {v : ℝ} {m : ℤ} (h : IsRoundHalfEven v m) (k : ℤ)
    (hne : ∀ j : ℤ, (j : ℝ) - 1 / 2 ≠ v) : IsRoundHalfEven (k - v) (k - m) := by
  have hdist : (k : ℝ) - v - ((k - m : ℤ) : ℝ) = -(v - m) := by
    push_cast
    ring
  rw [IsRoundHalfEven, hdist, abs_neg]
  refine ⟨h.1, fun htie => ?_⟩
  rcases eq_or_eq_neg_of_abs_eq htie with htie | htie
  · exact absurd (by push_cast; linarith) (hne (m + 1))
  · exact absurd (by linarith) (hne m)

/-- Settles O42: the exact values are equal about a quarter turn, and reflected half a turn on, where no
tie breaks the reflection of the rounding. -/
theorem sineTableIsSymmetric : Obligations.SineTableIsSymmetric := by
  intro A B x hA hB h0 hx
  obtain ⟨a, rfl⟩ := Nat.exists_eq_add_of_le' (Nat.one_le_of_lt hA)
  rw [Nat.add_sub_cancel] at hx ⊢
  have hround := sineEntry_isRoundHalfEven hB (a + 1) x
  have hno_tie (j : ℤ) : (j : ℝ) - 1 / 2 ≠ sineValue (a + 1) B x := fun h => by
    have hzero := sine_tie_only_at_zeros hB (by rw [pow_succ]; omega) h
    rw [pow_succ] at hzero
    omega
  have hreflected := hround.intCast_sub (2 ^ B - 1) hno_tie
  constructor
  · exact sineEntry_eq_of_isRoundHalfEven hB (sineValue_half_turn_sub B hx.le ▸ hround)
  · refine sineEntry_eq_of_isRoundHalfEven hB ?_
    rw [sineValue_half_turn_add]
    exact_mod_cast hreflected

end Sys2Proof.Machine
end

section
/-! PROOF. TRIANGLE and SAWTOOTH at the defaults in closed form (40_wavetable.md R89, R90). -/

namespace Sys2Proof.Machine

/-- At the defaults `triangleU4` is four times the rule's `u` (40_wavetable.md R89). -/
theorem triangleU4_defaults {x u : ℕ}
    (hu : (u : ℤ) = |(((x + 1024) % 4096 : ℕ) : ℤ) - 2048|) : triangleU4 12 x = 4 * u := by
  have hmod : (4 * x + 4096) % 16384 = 4 * ((x + 1024) % 4096) := by omega
  have hU4 : triangleU4 12 x = ((((4 * x + 4096) % 16384 : ℕ) : ℤ) - 8192).natAbs := rfl
  rw [Int.abs_eq_natAbs] at hu
  rw [hU4, hmod]
  omega

/-- TRIANGLE_RAW at the defaults, by the rule's `u`. -/
theorem triangleRaw_defaults {x u : ℕ} (hU4 : triangleU4 12 x = 4 * u) :
    triangleRaw 12 12 x = divRoundHalfEven (4096 + 16380 * u) 8192 := by
  have hnum : (4096 : ℤ) * 4096 + 4095 * (4 * u : ℕ) - 4095 * 4096 = 4096 + 16380 * u := by
    push_cast
    ring
  rw [← hnum, ← hU4]
  rfl

/-- TRIANGLE at the defaults by the rule's `u`: the two ends are the ties of the rounding, and between
them `4095 u / 2048` is no integer (40_wavetable.md R89). -/
theorem triangleEntry_defaults {x u : ℕ}
    (hu : (u : ℤ) = |(((x + 1024) % 4096 : ℕ) : ℤ) - 2048|) :
    (u = 0 → triangleEntry 12 12 x = 0) ∧ (u = 2048 → triangleEntry 12 12 x = 4095) ∧
    (0 < u → u < 2048 → triangleEntry 12 12 x = (4095 * u / 2048 + 1 : ℕ)) := by
  have hround := divRoundHalfEven_spec (4096 + 16380 * (u : ℤ)) (den := 8192) (by norm_num)
  rw [triangleEntry_eq, triangleRaw_defaults (triangleU4_defaults hu)]
  generalize divRoundHalfEven (4096 + 16380 * (u : ℤ)) 8192 = m at hround ⊢
  exact ⟨by omega, by omega, by omega⟩

/-- SAWTOOTH at the defaults: a tie at 0, and elsewhere less than one step about an integer
(40_wavetable.md R90). -/
theorem sawtoothEntry_defaults (x : ℕ) : (x = 0 → sawtoothEntry 12 12 x = 2048) ∧
    (1 ≤ x → x ≤ 2047 → sawtoothEntry 12 12 x = 2047 + x) ∧
    (2048 ≤ x → x ≤ 4095 → sawtoothEntry 12 12 x = (x : ℤ) - 2048) := by
  have hround := divRoundHalfEven_spec
    (2 * 4095 * ((x : ℤ) - 4096 * ((2 * x + 4096) / 8192 : ℕ)) + 4095 * 4096)
    (den := 8192) (by norm_num)
  have hentry : sawtoothEntry 12 12 x = divRoundHalfEven
    (2 * 4095 * ((x : ℤ) - 4096 * ((2 * x + 4096) / 8192 : ℕ)) + 4095 * 4096) 8192 := rfl
  rw [hentry]
  exact ⟨by omega, by omega, by omega⟩

/-- Settles O43: each case is the one integer that the rounding's bounds leave. -/
theorem closedFormsAtTheDefaults : Obligations.ClosedFormsAtTheDefaults := by
  refine ⟨fun x u _ hu => triangleEntry_defaults hu, ?_, fun x => ?_, fun x => ?_⟩
  · obtain ⟨htie, -, -⟩ := sawtoothEntry_defaults 0
    exact htie rfl
  · obtain ⟨-, hfirst, -⟩ := sawtoothEntry_defaults x
    exact hfirst
  · obtain ⟨-, -, hsecond⟩ := sawtoothEntry_defaults x
    exact hsecond

end Sys2Proof.Machine
end

section
/-! PROOF. The assembler's frequency field and its operation lines (30_encoding.md R69). -/

namespace Sys2Proof.Machine

/-- A rational of at least 0 whose denominator divides `2^16` is a number of units of `2^-16`. -/
theorem eq_units_div_two_pow {v : ℚ} (hv : 0 ≤ v) (hden : v.den ∣ 65536) :
    v = ((v.num.toNat * (65536 / v.den) : ℕ) : ℚ) / 2 ^ 16 := by
  obtain ⟨c, hc⟩ := hden
  have hunits : (2 : ℚ) ^ 16 = v.den * c := by exact_mod_cast (by norm_num : 2 ^ 16 = 65536).trans hc
  have hc0 : (c : ℚ) ≠ 0 := by
    rintro h
    norm_num [h] at hunits
  rw [hunits, hc, Nat.mul_div_cancel_left _ v.den_pos, Nat.cast_mul, mul_div_mul_right _ _ hc0,
    natCast_num_div_den hv]

/-- The denominator of a field's frequency divides `2^16` (30_encoding.md R64). -/
theorem freqOfField_den_dvd (F : BitVec 48) : (freqOfField F).den ∣ 65536 := by
  have h := Rat.den_dvd F.toNat 65536
  exact_mod_cast h

/-- The assembler gives a frequency the field that stands for it, and refuses those without one
(30_encoding.md R69). -/
theorem fieldOfFreq_eq_some_iff (v : ℚ) (F : BitVec 48) :
    fieldOfFreq v = some F ↔ freqOfField F = v := by
  rw [fieldOfFreq]
  constructor
  · intro h
    split_ifs at h with hok
    obtain ⟨hnum, hden, hlt⟩ := hok
    obtain rfl := Option.some.inj h
    refine Eq.trans ?_ (eq_units_div_two_pow (Rat.num_nonneg.mp hnum)
      (Nat.dvd_of_mod_eq_zero hden)).symm
    rw [freqOfField_eq_iff, BitVec.toNat_ofNat, Nat.mod_eq_of_lt hlt]
  · rintro rfl
    have hden := freqOfField_den_dvd F
    have hnonneg := (freqOfField_mem_range F).1
    have hfield := (freqOfField_eq_iff F _).mp (eq_units_div_two_pow hnonneg hden)
    rw [if_pos ⟨Rat.num_nonneg.mpr hnonneg, Nat.mod_eq_zero_of_dvd hden, hfield ▸ F.isLt⟩,
      ← hfield, BitVec.ofNat_toNat, BitVec.setWidth_eq]

/-- `setfreq` assembles to the SET_FREQUENCY of the frequency's field, and is refused where there is none
(30_encoding.md R69). -/
theorem asmWords_setfreq_iff (v : ℚ) (ws : List Word) : asmWords (.setfreq v) = some ws ↔
    ∃ F, freqOfField F = v ∧ ws = [encode (.setFrequency F)] := by
  simp only [asmWords, Option.map_eq_some_iff, fieldOfFreq_eq_some_iff, eq_comm (a := ws)]

/-- A line that assembles to an operation's word assembles to one word that decodes to the operation. -/
theorem exists_word_decode {l : AsmLine} {i : Instr} (h : asmWords l = some [encode i]) :
    ∃ w, asmWords l = some [w] ∧ decode w = .ok i :=
  ⟨encode i, h, decode_encode i⟩

/-- Settles O52: the field is exact by value, and each operation line is its operation's one word. -/
theorem assemblerNeverRounds : Obligations.AssemblerNeverRounds :=
  ⟨fieldOfFreq_eq_some_iff, asmWords_setfreq_iff, fun _ => rfl, exists_word_decode rfl,
    exists_word_decode rfl, fun _ => exists_word_decode rfl, fun _ => exists_word_decode rfl,
    fun v F hF => exists_word_decode ((asmWords_setfreq_iff v _).mpr ⟨F, hF, rfl⟩),
    exists_word_decode rfl, exists_word_decode rfl, fun _ => rfl⟩

end Sys2Proof.Machine
end
